-- ==== Sys2Proof/Word.lean ====
section
/-! DEFINITION. The machine's two bit-vector types and the ends of the signed 32-bit range. -/

namespace Sys2Proof

/-- A signed 32-bit two's complement value (R7): every data word, the operand X, IP and SP.
The value the spec computes with is `Word.toInt`. -/
abbrev Word := BitVec 32

/-- A byte of the output port, of the program container and of assembler text. -/
abbrev Byte := BitVec 8

/-- `INT_MIN` of R8. -/
abbrev intMin : Int := -2147483648

/-- `INT_MAX` of R8. -/
abbrev intMax : Int := 2147483647

end Sys2Proof
end

