-- ==== Sys2Proof/Syntax.lean ====
section
/-! DEFINITION. The instruction record (R51, R52), the nine mnemonics (R54) and the instruction as
syntax: a mnemonic with its operand X (R15, R76). -/

namespace Sys2Proof

/-- One instruction record of the code array: the pair (op, x) of signed 32-bit values (R24, R51). -/
structure Record where
  op : Word
  x  : Word
deriving DecidableEq, Repr, Inhabited

/-- The closed set of nine opcodes (R1, R54), in the order of the spec's opcode map (R55). -/
inductive Mnemonic where
  | ILL | LIT | LOD | STO | ADD | SUB | MUL | DIV | WRT
deriving DecidableEq, Repr

/-- The nine opcodes, in the order of R55. -/
def Mnemonic.all : List Mnemonic := [.ILL, .LIT, .LOD, .STO, .ADD, .SUB, .MUL, .DIV, .WRT]

/-- An instruction: a tagged operation plus its signed 32-bit operand field X (R15). Every
constructor carries X, also those whose operation never reads it (R57), because a record of any
opcode may hold any X and decode copies it unchanged (R56, R62, R76). -/
inductive Instr where
  /-- R84: the illegal marker. -/
  | ill (x : Word)
  /-- R86: push the literal X. -/
  | lit (x : Word)
  /-- R87: push the word at data index X. -/
  | lod (x : Word)
  /-- R88: pop the top into data index X. -/
  | sto (x : Word)
  /-- R93: pop two, push the sum. -/
  | add (x : Word)
  /-- R94: pop two, push the difference, earlier minus later. -/
  | sub (x : Word)
  /-- R95: pop two, push the product. -/
  | mul (x : Word)
  /-- R96: pop two, push the quotient, earlier by later. -/
  | div (x : Word)
  /-- R98: pop the top and emit it in decimal. -/
  | wrt (x : Word)
deriving DecidableEq, Repr

/-- The mnemonic of an instruction. -/
def Instr.mnemonic : Instr → Mnemonic
  | .ill _ => .ILL
  | .lit _ => .LIT
  | .lod _ => .LOD
  | .sto _ => .STO
  | .add _ => .ADD
  | .sub _ => .SUB
  | .mul _ => .MUL
  | .div _ => .DIV
  | .wrt _ => .WRT

/-- The operand field X of an instruction. -/
def Instr.operand : Instr → Word
  | .ill x => x
  | .lit x => x
  | .lod x => x
  | .sto x => x
  | .add x => x
  | .sub x => x
  | .mul x => x
  | .div x => x
  | .wrt x => x

/-- The instruction (m, X) of R76. -/
def Mnemonic.withOperand : Mnemonic → Word → Instr
  | .ILL, x => .ill x
  | .LIT, x => .lit x
  | .LOD, x => .lod x
  | .STO, x => .sto x
  | .ADD, x => .add x
  | .SUB, x => .sub x
  | .MUL, x => .mul x
  | .DIV, x => .div x
  | .WRT, x => .wrt x

end Sys2Proof
end

