-- ==== Sys2Proof/Config.lean ====
section
/-! DEFINITION. What is fixed when a machine is constructed (R5, R6), the sink's answers, and the free
values: constants without a body, which no proof can see into. -/

namespace Sys2Proof

/-- A capacity: 0 to 2^31 - 1, the range R5 gives `STACK_CAP` and `CODE_CAP` (decision D16). -/
abbrev Capacity := Fin 2147483648

/-- The parameter `TAG` of R6: the opcode tag of each of the nine opcodes. A model may take any
injective map (`TagMap.injective`, Sys2Proof/WellFormed.lean). -/
structure TagMap where
  ill : Word
  lit : Word
  lod : Word
  sto : Word
  add : Word
  sub : Word
  mul : Word
  div : Word
  wrt : Word
deriving DecidableEq, Repr

/-- The construction parameters of R5 and the parameter `TAG` of R6, fixed for the life of the machine.
`SINK` is an external agent: what it answers stands in State (`sinkAnswers`). -/
structure Params where
  /-- `STACK_CAP`: the number of words of the stack/memory array. -/
  stackCap : Capacity
  /-- `CODE_CAP`: the number of records of the code array, and of cycles of one RUN. -/
  codeCap : Capacity
  /-- `ENTRY`: the reset value of IP, any signed 32-bit value, first checked by the first fetch. -/
  entry : Word
  /-- `TAG`. -/
  tag : TagMap
deriving DecidableEq, Repr

/-- The sink's own error value, which the machine carries unchanged (R99). The spec gives it no form;
the model numbers the errors (DESIGN CHOICE, assumption 7). -/
abbrev SinkError := Nat

/-- The sink's answer to one Emit (R99, R114). -/
inductive SinkAnswer where
  | accept
  | fail (e : SinkError)
deriving DecidableEq, Repr, Inhabited

namespace Config

/-- FREE VALUE. `MEM_INIT` of R6 and R32: what word i of the stack/memory array holds until it is
written. OPEN in the spec (D4, U8): no value is fixed. -/
opaque memInit : Nat → Word

/-- FREE VALUE. What record i of the code array holds before a LOAD writes it: unspecified (R32, U11).
No fetch reaches one (`MachineInv`, Sys2Proof/Safety.lean). -/
opaque codeInit : Nat → Record

/-- FREE VALUE. The sink's answer to transfer number n when State lists no answer for it (R99, U7,
decision D14): either answer, not chosen by the core. -/
opaque sinkDraw : Nat → SinkAnswer

/-- FREE VALUE. The count Encode writes for a sequence of n records where n fits no signed 32-bit count:
the spec states none (R8, R64, R65; DESIGN CHOICE, assumption 29). -/
opaque oversizeCount : Nat → Word

end Config

end Sys2Proof
end

