-- ==== Sys2Proof/WellFormed.lean ====
section
/-! DEFINITION. Checks on syntax and parameters. No meaning depends on one: the core runs every record
that fetch lets through (R57, R62). They are the hypotheses of the round trips and of statements over
an arbitrary `TAG`. -/

namespace Sys2Proof

/-- The opcodes whose operation reads X (R55, column "operand X used"). -/
def Mnemonic.usesOperand : Mnemonic → Bool
  | .LIT | .LOD | .STO => true
  | .ILL | .ADD | .SUB | .MUL | .DIV | .WRT => false

/-- The eight opcodes that are legal at fetch (R55, R74). ILL is not (R58). -/
def Mnemonic.executable : Mnemonic → Bool
  | .ILL => false
  | .LIT | .LOD | .STO | .ADD | .SUB | .MUL | .DIV | .WRT => true

/-- An instruction is well formed when it has the form the assembler writes (R57, R69): X is zero in a
zero-operand opcode. The core also runs instructions that are not (R57). -/
def Instr.wellFormed (i : Instr) : Bool := i.mnemonic.usesOperand || i.operand == 0

/-- An instruction that fetch lets through: any but ILL (R58, R74). -/
def Instr.executable (i : Instr) : Bool := i.mnemonic.executable

/-- The instructions that execute is applied to: the eight executable mnemonics with any X. ILL is not
among them, by type (R77, R78). -/
abbrev Executable := { i : Instr // i.executable = true }

/-- The nine tags, in the order of R55. -/
def TagMap.values (t : TagMap) : List Word :=
  [t.ill, t.lit, t.lod, t.sto, t.add, t.sub, t.mul, t.div, t.wrt]

/-- `TAG` is injective, as R6 asks. -/
def TagMap.injective (t : TagMap) : Bool := decide t.values.Nodup

/-- A code sequence a container can hold: its length fits the signed 32-bit count (R65). -/
def fitsCount (seq : List Record) : Bool := decide (seq.length < 2147483648)

end Sys2Proof
end

