-- ==== Sys2Proof/Decode.lean ====
section
/-! DEFINITION. Records to instructions and back, bytes to records and back (R51 to R58, R76). Decoding is
total and rejects by name. -/

namespace Sys2Proof

/-! ## Byte order (R51) -/

/-- The value of four little-endian bytes: b0 + 256*b1 + 65536*b2 + 16777216*b3, read as a 32-bit
pattern (R51). -/
def wordOfBytes (b0 b1 b2 b3 : Byte) : Word :=
  BitVec.ofNat 32 (b0.toNat + 256 * b1.toNat + 65536 * b2.toNat + 16777216 * b3.toNat)

/-- Byte k of a natural number, least significant first. -/
def byteOf (n k : Nat) : Byte := BitVec.ofNat 8 (n / 256 ^ k)

/-- The four little-endian bytes of a word: byte k has weight 256^k (R51). -/
def bytesOfWord (w : Word) : List Byte :=
  [byteOf w.toNat 0, byteOf w.toNat 1, byteOf w.toNat 2, byteOf w.toNat 3]

/-! ## The opcode map (R54, R55) -/

/-- The default `TAG` of R6: the position of each row of R55 (decision D1). -/
def TagMap.default : TagMap where
  ill := 0
  lit := 1
  lod := 2
  sto := 3
  add := 4
  sub := 5
  mul := 6
  div := 7
  wrt := 8

/-- `TAG(m)`. -/
def TagMap.of (t : TagMap) : Mnemonic → Word
  | .ILL => t.ill
  | .LIT => t.lit
  | .LOD => t.lod
  | .STO => t.sto
  | .ADD => t.add
  | .SUB => t.sub
  | .MUL => t.mul
  | .DIV => t.div
  | .WRT => t.wrt

/-- Why a record or a byte string is no instruction. -/
inductive DecodeError where
  /-- The op value is none of the nine tags (R58). -/
  | illegalOpcode (op : Word)
  /-- Fewer than the eight bytes of a record (R51). -/
  | shortRecord
deriving DecidableEq, Repr

/-- The mnemonic m with TAG(m) = op, which is unique for an injective TAG (R76). -/
def decodeOp (t : TagMap) (op : Word) : Option Mnemonic :=
  Mnemonic.all.find? fun m => t.of m == op

/-- A record as an instruction (m, X): X is the whole field x, unchanged (R56, R76). The illegal
marker is decoded too: it is fetch that rejects it (R74). -/
def decodeRecord (t : TagMap) (r : Record) : Except DecodeError Instr :=
  match decodeOp t r.op with
  | some m => .ok (m.withOperand r.x)
  | none => .error (.illegalOpcode r.op)

/-- `LEGAL` of R74. -/
def legalOps (t : TagMap) : List Word :=
  [t.lit, t.lod, t.sto, t.add, t.sub, t.mul, t.div, t.wrt]

/-- The first eight bytes of a byte string as a record, with the bytes after it (R51). -/
def recordOfBytes : List Byte → Option (Record × List Byte)
  | b0 :: b1 :: b2 :: b3 :: b4 :: b5 :: b6 :: b7 :: rest =>
    some (⟨wordOfBytes b0 b1 b2 b3, wordOfBytes b4 b5 b6 b7⟩, rest)
  | _ => none

/-- The instruction at the head of a byte string, with the bytes after it. -/
def decodeBytes (t : TagMap) (bs : List Byte) : Except DecodeError (Instr × List Byte) :=
  match recordOfBytes bs with
  | none => .error .shortRecord
  | some (r, rest) =>
    match decodeRecord t r with
    | .ok i => .ok (i, rest)
    | .error e => .error e

/-! ## The encoder -/

/-- The record of an instruction (R55). -/
def encodeRecord (t : TagMap) (i : Instr) : Record := ⟨t.of i.mnemonic, i.operand⟩

/-- The eight bytes of a record: op, then x, each little-endian (R51). -/
def bytesOfRecord (r : Record) : List Byte := bytesOfWord r.op ++ bytesOfWord r.x

/-- The eight bytes of an instruction. -/
def encode (t : TagMap) (i : Instr) : List Byte := bytesOfRecord (encodeRecord t i)

/-! ## The opcode table's numbering (R53) -/

/-- The eight bytes, as the container stores them, of an instruction whose bits are w, counted as
opcode_table.json counts them: W = u32(x) ++ u32(op) (R53). Bits from nbits up are zero. -/
def tableBytes (nbits w : Nat) : List Byte :=
  (List.range 8).map fun k => byteOf (w % 2 ^ nbits) k

/-- What the decoder reads, with the default TAG, from the instruction whose bits are w. -/
def decodeTableWord (nbits w : Nat) : Option Instr :=
  match decodeBytes TagMap.default (tableBytes nbits w) with
  | .ok (i, _) => some i
  | .error _ => none

end Sys2Proof
end

