-- ==== Sys2Proof/Machine/State.lean ====
section
/-! DEFINITION. The machine's state as plain data, the reasons a step can stop, and the machine right after
reset. -/

namespace Sys2Proof.Machine

/-- The core fault kinds of R102. OutputError carries the sink's own error (R99). -/
inductive FaultKind where
  | illegalInstruction
  | memoryError
  | stackOverflow
  | arithmeticOverflow
  | divideByZero
  | outputError (e : SinkError)
deriving DecidableEq, Repr

/-- `MODE`, the run-control mode (R28). -/
inductive Mode where
  /-- The code array has not been loaded. -/
  | unloaded
  /-- Code is loaded and the machine may step. -/
  | loaded
  /-- `FAULT` is not none. -/
  | faulted
deriving DecidableEq, Repr

/-- The written words of the stack/memory array (R22): pairs of a data index and a word, indices
strictly rising (`Memory.wf`, Sys2Proof/Machine/Ops.lean). An index that is not listed has not been
written since construction and reads as `Config.memInit` of it (R46). The unit is the 32-bit word, the
smallest the core addresses (R35, R37; assumption 3). -/
abbrev Memory := List (Nat × Word)

/-- Everything the spec gives the machine (R17 to R29, R32). -/
structure State where
  /-- The construction parameters (R5): no step changes them. -/
  params : Params
  /-- IP: the index of the next record to fetch (R18). -/
  ip : Word
  /-- SP: one past the top of the stack (R20). -/
  sp : Word
  /-- `mem`: the stack/memory array (R22). -/
  mem : Memory
  /-- `code`: the loaded records, record i at position i (R24); the empty list before LOAD. -/
  code : List Record
  /-- `OUT`: the bytes the sink has accepted, oldest first (R25). -/
  out : List Byte
  /-- `FAULT`: the fault latch (R26). -/
  fault : Option FaultKind
  /-- `MODE` (R28). -/
  mode : Mode
  /-- `RC`: cycles completed in the RUN in progress (R29). -/
  rc : Nat
  /-- The external sink (R114): its answers to the next transfers, the next one first. Where the list
  ends, the answers are `Config.sinkDraw` (assumption 6). -/
  sinkAnswers : List SinkAnswer
  /-- The model's own field, not the spec's: how many transfers the port has made, the counter that
  `Config.sinkDraw` is applied to (assumption 6). -/
  transfers : Nat
deriving DecidableEq, Repr

/-- Why the machine has stopped. -/
inductive Fault where
  /-- Raised by `step` alone, in MODE = Faulted: every fault is terminal and the machine takes no
  further step (R105). `latch` is FAULT. The step that raises the fault is a next state (R104).
  Safe: the spec refuses the step. -/
  | terminal (latch : Option FaultKind)
deriving DecidableEq, Repr

/-- Why a step is refused. -/
inductive Refusal where
  /-- An instruction without a meaning; no arm of `exec` answers it. Safe: nothing runs. -/
  | notModelled (mnemonic : String)
  /-- Raised by `step` alone, in MODE = Unloaded: STEP is refused before LOAD (R119, U11). Safe: the
  spec refuses the step. -/
  | stepBeforeLoad
deriving DecidableEq, Repr

namespace State

/-! Updates. Sys2Proof/Laws/State.lean has one lemma per field for each. -/

/-- `IP <- v`. -/
def setIp (s : State) (v : Word) : State := { s with ip := v }

/-- `SP <- v`. -/
def setSp (s : State) (v : Word) : State := { s with sp := v }

/-- The stack/memory array becomes m. -/
def setMem (s : State) (m : Memory) : State := { s with mem := m }

/-- `RC <- n`. -/
def setRc (s : State) (n : Nat) : State := { s with rc := n }

/-- The code array becomes seq and the machine may step. -/
def setCode (s : State) (seq : List Record) : State := { s with code := seq, mode := .loaded }

/-- `FAULT <- k` and `MODE <- Faulted`. -/
def setFault (s : State) (k : FaultKind) : State := { s with fault := some k, mode := .faulted }

/-- `OUT` becomes bs. -/
def setOut (s : State) (bs : List Byte) : State := { s with out := bs }

/-- The sink has answered one transfer. -/
def setAnswered (s : State) : State :=
  { s with sinkAnswers := s.sinkAnswers.tail, transfers := s.transfers + 1 }

/-- CONSTRUCT (R120): every piece of state at its reset value of R32. `answers` is what the sink bound
to the machine will answer. -/
def construct (p : Params) (answers : List SinkAnswer) : State where
  params := p
  ip := p.entry
  sp := 0
  mem := []
  code := []
  out := []
  fault := none
  mode := .unloaded
  rc := 0
  sinkAnswers := answers
  transfers := 0

/-- The parameters of `reset`: the stack capacity of the spec's programs (95_test_vectors.md sections 1
and 10), one code record, entry 0 and the default TAG (DESIGN CHOICE, assumption 1). -/
def resetParams : Params where
  stackCap := 8
  codeCap := 1
  entry := 0
  tag := TagMap.default

/-- The machine right after reset: CONSTRUCT with `resetParams`, bound to a sink whose answers are all
left free (R32, R120; assumption 1). -/
def reset : State := construct resetParams []

end State

end Sys2Proof.Machine
end

