-- ==== Sys2Proof/Machine/Operands.lean ====
section
/-! DEFINITION. The two addressing modes of the ISA (41_data_transfer.md): absolute by X, and relative to SP.
An index is a mathematical integer until the bounds checker has seen it (R38). -/

namespace Sys2Proof.Machine

/-- The signed value of the operand X: an absolute data index, used as given (R56). -/
def dataIndex (x : Word) : Int := x.toInt

/-- The index a push writes to: SP (R42). -/
def pushIndex (s : State) : Int := s.sp.toInt

/-- The index of the top of the stack: SP - 1 (R23). -/
def topIndex (s : State) : Int := s.sp.toInt - 1

/-- The index of the entry pushed before the top: SP - 2 (R23). -/
def secondIndex (s : State) : Int := s.sp.toInt - 2

/-- Record i of the code array: the loaded record, or before LOAD the free value (R24, R32). -/
def codeAt (s : State) (i : Nat) : Record := s.code[i]?.getD (Config.codeInit i)

end Sys2Proof.Machine
end

