-- ==== Sys2Proof/Machine/Ops.lean ====
section
/-! DEFINITION. The shared operations: the stack/memory array, the bounds checker and the stack primitives (R38
to R43), fault entry (R104) and the output port (R99). Each either goes on with a value and a state, or
raises a fault with the state that the effects before the raise have left (R11, R12). -/

namespace Sys2Proof.Machine

/-! ## Results that may raise (R11) -/

/-- The result of an operation: it goes on, or it raises k. Either way it hands on the state as its
effects so far have left it (R11). -/
inductive Res (α : Type) where
  | ok (a : α) (s : State)
  | raised (k : FaultKind) (s : State)
deriving DecidableEq, Repr

/-- Run f after r, unless r has raised (R12). -/
def andThen {α β : Type} (r : Res α) (f : α → State → Res β) : Res β :=
  match r with
  | .ok a s => f a s
  | .raised k s => .raised k s

/-- Fault entry (R104): what the step did before the raise stays, FAULT takes the kind and MODE becomes
Faulted. Nothing is saved and no handler runs, so there is no return from a fault (R108). -/
def enterFault (k : FaultKind) (s : State) : State := s.setFault k

/-- The end of an instruction: a raise enters the fault (R104). -/
def conclude (r : Res Unit) : Host.Outcome State Fault Refusal :=
  match r with
  | .ok _ s => .next s
  | .raised k s => .next (enterFault k s)

/-- The numeric code of a fault kind (R102, decision D9). -/
def faultCode : FaultKind → Nat
  | .illegalInstruction => 1
  | .memoryError => 2
  | .stackOverflow => 3
  | .arithmeticOverflow => 4
  | .divideByZero => 5
  | .outputError _ => 6

/-! ## The stack/memory array (R22) -/

/-- The word last written at index i, if any. -/
def Memory.lookup : Memory → Nat → Option Word
  | [], _ => none
  | (j, w) :: rest, i => if i = j then some w else Memory.lookup rest i

/-- Word i of the array: the last word written there, or MEM_INIT(i) (R46). -/
def Memory.word (m : Memory) (i : Nat) : Word := (Memory.lookup m i).getD (Config.memInit i)

/-- Word i becomes v; every other word stays. The listing stays in order of the indices. -/
def Memory.store : Memory → Nat → Word → Memory
  | [], i, v => [(i, v)]
  | (j, w) :: rest, i, v =>
    if i < j then (i, v) :: (j, w) :: rest
    else if i = j then (i, v) :: rest
    else (j, w) :: Memory.store rest i v

/-- The indices of a listing rise strictly from at least lo, and stay below cap. -/
def Memory.wfFrom (cap : Nat) : Nat → Memory → Bool
  | _, [] => true
  | lo, (j, _) :: rest => decide (lo ≤ j) && decide (j < cap) && Memory.wfFrom cap (j + 1) rest

/-- The canonical form of the array of `cap` words: indices strictly rising and below cap. A listed
index is one that has been written; an unlisted one reads as the free value MEM_INIT, which no entry
can be compared with (assumption 3). -/
def Memory.wf (cap : Nat) (m : Memory) : Bool := Memory.wfFrom cap 0 m

/-- Word i of a state's stack/memory array. -/
def wordAt (s : State) (i : Nat) : Word := Memory.word s.mem i

/-- `STACK_CAP` as an integer. -/
def stackCap (s : State) : Int := (s.params.stackCap.val : Int)

/-- `CODE_CAP` as an integer. -/
def codeCap (s : State) : Int := (s.params.codeCap.val : Int)

/-! ## The bounds checker (R38, R39) -/

/-- The bounds check: i is no index of the stack/memory array. -/
abbrev OutOfBounds (s : State) (i : Int) : Prop := i < 0 ∨ stackCap s ≤ i

/-- `MemRead(i, 1)` (R38). -/
def memRead (i : Int) (s : State) : Res Word :=
  if OutOfBounds s i then .raised .memoryError s else .ok (wordAt s i.toNat) s

/-- `MemWrite(i, 1, v)` (R39). -/
def memWrite (i : Int) (v : Word) (s : State) : Res Unit :=
  if OutOfBounds s i then .raised .memoryError s
  else .ok () (s.setMem (Memory.store s.mem i.toNat v))

/-! ## The stack primitives (R40 to R43) -/

/-- `IncSP()` (R40). The ceiling is STACK_CAP - 1: the last word is the sentinel slot
(90_conflicts.md C4). -/
def incSP (s : State) : Res Unit :=
  if stackCap s - 1 ≤ s.sp.toInt then .raised .stackOverflow s
  else .ok () (s.setSp (BitVec.ofInt 32 (s.sp.toInt + 1)))

/-- `DecSP()` (R41). -/
def decSP (s : State) : Res Unit :=
  if s.sp.toInt ≤ 0 then .raised .stackOverflow s
  else .ok () (s.setSp (BitVec.ofInt 32 (s.sp.toInt - 1)))

/-- `Push(v)` (R42): write, then increment (decision D5, assumption 9). -/
def push (v : Word) (s : State) : Res Unit :=
  andThen (memWrite (pushIndex s) v s) fun _ s => incSP s

/-- `Pop()` (R43): read, then decrement (decision D6, assumption 10). -/
def pop (s : State) : Res Word :=
  andThen (memRead (topIndex s) s) fun v s =>
  andThen (decSP s) fun _ s => .ok v s

/-! ## The output port (R99) -/

/-- The sink's answer to the next transfer: the listed one, or where the list ends a free value. -/
def sinkAnswer (s : State) : SinkAnswer :=
  match s.sinkAnswers with
  | a :: _ => a
  | [] => Config.sinkDraw s.transfers

/-- `Emit(bytes)` (R99): one transfer. `accept` appends the bytes to OUT; `fail(e)` raises
OutputError(e) and leaves OUT as it was. -/
def emit (bytes : List Byte) (s : State) : Res Unit :=
  match sinkAnswer s with
  | .accept => .ok () (s.setAnswered.setOut (s.out ++ bytes))
  | .fail e => .raised (.outputError e) s.setAnswered

end Sys2Proof.Machine
end

