-- ==== Sys2Proof/Machine/Flags.lean ====
section
/-! DEFINITION. The core has no flags (R27): the ALU signals overflow and division by zero only as faults. This
file holds the range check, the four ALU functions (R89 to R96) and how a raise of theirs ends the step. -/

namespace Sys2Proof.Machine

/-- `in32(v)` (R8). -/
abbrev In32 (v : Int) : Prop := intMin ≤ v ∧ v ≤ intMax

/-- The ALU's result: the exact integer v as a word, or ArithmeticOverflow when it does not fit (R89,
R90). It never wraps. -/
def narrow (v : Int) : Except FaultKind Word :=
  if In32 v then .ok (BitVec.ofInt 32 v) else .error .arithmeticOverflow

/-- Integer division truncated toward zero, for d ≠ 0 (R8, R92). -/
def truncDiv (n d : Int) : Int := Int.tdiv n d

/-- `add(a, b)` (R93). -/
def aluAdd (a b : Word) : Except FaultKind Word := narrow (a.toInt + b.toInt)

/-- `sub(a, b)` (R94): the earlier operand b minus the later a. -/
def aluSub (a b : Word) : Except FaultKind Word := narrow (b.toInt - a.toInt)

/-- `mul(a, b)` (R95): overflow exactly when the exact product does not fit (90_conflicts.md C1). -/
def aluMul (a b : Word) : Except FaultKind Word := narrow (a.toInt * b.toInt)

/-- `div(a, b)` (R96): the earlier operand b divided by the later a. Zero is checked first. -/
def aluDiv (a b : Word) : Except FaultKind Word :=
  if a.toInt = 0 then .error .divideByZero
  else if a.toInt = -1 ∧ b.toInt = intMin then .error .arithmeticOverflow
  else narrow (truncDiv b.toInt a.toInt)

/-- An ALU result inside a step: a word to go on with, or a raise that has changed nothing. -/
def ofAlu (r : Except FaultKind Word) (s : State) : Res Word :=
  match r with
  | .ok w => .ok w s
  | .error k => .raised k s

end Sys2Proof.Machine
end

