-- ==== Sys2Proof/Machine/Arithmetic.lean ====
section
/-! DEFINITION. The arithmetic instructions ADD, SUB, MUL and DIV (R91, R93 to R96). X is ignored (R57). -/

namespace Sys2Proof.Machine

/-- R91, `BinOp(f)`: read the later operand a, then the earlier b, compute, overwrite the slot of b, and
decrement SP once. -/
def binOp (f : Word → Word → Except FaultKind Word) (s : State) : Res Unit :=
  andThen (memRead (topIndex s) s) fun a s =>
  andThen (memRead (secondIndex s) s) fun b s =>
  andThen (ofAlu (f a b) s) fun r s =>
  andThen (memWrite (secondIndex s) r s) fun _ s =>
  decSP s

/-- R93: ADD. -/
def execAdd (s : State) : Host.Outcome State Fault Refusal := conclude (binOp aluAdd s)

/-- R94: SUB. -/
def execSub (s : State) : Host.Outcome State Fault Refusal := conclude (binOp aluSub s)

/-- R95: MUL. -/
def execMul (s : State) : Host.Outcome State Fault Refusal := conclude (binOp aluMul s)

/-- R96: DIV. -/
def execDiv (s : State) : Host.Outcome State Fault Refusal := conclude (binOp aluDiv s)

end Sys2Proof.Machine
end

