-- ==== Sys2Proof/Machine/Output.lean ====
section
/-! DEFINITION. The output instruction WRT and the decimal rendering (R98 to R101). -/

namespace Sys2Proof.Machine

/-- The ASCII byte of a decimal digit: 0x30 to 0x39 (R100). -/
def digitByte (d : Nat) : Byte := BitVec.ofNat 8 (0x30 + d)

/-- The decimal digits of n, most significant first, without leading zeros, in at most `fuel` digits. -/
def decDigits : Nat → Nat → List Byte
  | 0, _ => []
  | fuel + 1, n => if n < 10 then [digitByte n] else decDigits fuel (n / 10) ++ [digitByte (n % 10)]

/-- `dec(v)` (R100): a minus sign for a negative value, then the digits of |v| as an integer. |v| is at
most 2147483648, which has ten digits. -/
def dec (v : Word) : List Byte :=
  if v.toInt < 0 then 0x2D :: decDigits 10 v.toInt.natAbs else decDigits 10 v.toInt.natAbs

/-- The newline byte (R98). -/
def newline : Byte := 0x0A

/-- R98, `ExecWRT()`: pop the top, then emit it in decimal with a newline. X is ignored (R57). -/
def execWrt (s : State) : Host.Outcome State Fault Refusal :=
  conclude (andThen (pop s) fun v s => emit (dec v ++ [newline]) s)

end Sys2Proof.Machine
end

