-- ==== Sys2Proof/Machine/Transfer.lean ====
section
/-! DEFINITION. The data transfer instructions LIT, LOD and STO (R86 to R88). Each runs after fetch has advanced
IP (R75). -/

namespace Sys2Proof.Machine

/-- R86, `ExecLIT(X)`: push X itself. -/
def execLit (x : Word) (s : State) : Host.Outcome State Fault Refusal :=
  conclude (push x s)

/-- R87, `ExecLOD(X)`: the bounds-checked read comes before the push. -/
def execLod (x : Word) (s : State) : Host.Outcome State Fault Refusal :=
  conclude (andThen (memRead (dataIndex x) s) fun v s => push v s)

/-- R88, `ExecSTO(X)`: read the top, write it, then decrement. A failed write leaves SP alone
(90_conflicts.md C2). -/
def execSto (x : Word) (s : State) : Host.Outcome State Fault Refusal :=
  conclude
    (andThen (memRead (topIndex s) s) fun v s =>
     andThen (memWrite (dataIndex x) v s) fun _ s =>
     decSP s)

end Sys2Proof.Machine
end

