-- ==== Sys2Proof/Machine/Execute.lean ====
section
/-! DEFINITION. The execute stage of a cycle (R77, R78). -/

namespace Sys2Proof.Machine

/-- R77, R78: Execute, stated over the eight executable mnemonics only. It has no arm for ILL and no
default arm: `Executable` rules ILL out. -/
def execute (i : Executable) (s : State) : Host.Outcome State Fault Refusal :=
  match i with
  | ⟨.lit x, _⟩ => execLit x s
  | ⟨.lod x, _⟩ => execLod x s
  | ⟨.sto x, _⟩ => execSto x s
  | ⟨.add _, _⟩ => execAdd s
  | ⟨.sub _, _⟩ => execSub s
  | ⟨.mul _, _⟩ => execMul s
  | ⟨.div _, _⟩ => execDiv s
  | ⟨.wrt _, _⟩ => execWrt s

end Sys2Proof.Machine
end

