-- ==== Sys2Proof/Machine/Fetch.lean ====
section
/-! DEFINITION. The instruction fetch-decode unit (R73 to R76). -/

namespace Sys2Proof.Machine

/-- `Fetch()` and `Decode(r)` (R74, R76): check IP, read the whole record, reject every op outside LEGAL,
the illegal marker included, and advance IP last (R75, decision D7). X is never looked at. What it hands on is
executable by type (R78). -/
def fetch (s : State) : Res Executable :=
  if s.ip.toInt < 0 ∨ codeCap s ≤ s.ip.toInt then .raised .illegalInstruction s
  else
    match decodeRecord s.params.tag (codeAt s s.ip.toInt.toNat) with
    | .error _ => .raised .illegalInstruction s
    | .ok i =>
      if h : i.executable = true then .ok ⟨i, h⟩ (s.setIp (BitVec.ofInt 32 (s.ip.toInt + 1)))
      else .raised .illegalInstruction s

/-- The record whose table bits are w, bits from nbits up being zero (R53). -/
def tableRecord (nbits w : Nat) : Record :=
  ⟨BitVec.ofNat 32 (w % 2 ^ nbits), BitVec.ofNat 32 (w % 2 ^ nbits / 4294967296)⟩

/-- Where `placeRecord` puts a record: at IP, or at 0 where IP can index no code array. -/
def fetchIndex (s : State) : Nat :=
  if s.ip.toInt < 0 ∨ s.ip.toInt = intMax then 0 else s.ip.toInt.toNat

/-- s with the record r where the next fetch reads: record `fetchIndex s` of the code array, which is
made long enough to hold it, in MODE = Loaded. -/
def placeRecord (r : Record) (s : State) : State :=
  let i := fetchIndex s
  let cap := max s.params.codeCap.val (i + 1)
  { s with
    params := { s.params with codeCap := Fin.ofNat 2147483648 cap }
    ip := BitVec.ofNat 32 i
    code := (List.range cap).map fun j => if j = i then r else codeAt s j
    fault := none
    mode := .loaded }

end Sys2Proof.Machine
end

