-- ==== Sys2Proof/Machine/Cycle.lean ====
section
/-! DEFINITION. One fetch-execute cycle (R80). -/

namespace Sys2Proof.Machine

/-- `Cycle()` (R80): fetch and decode, then execute; a raise of the fetch enters the fault (R104). -/
def cycle (s : State) : Host.Outcome State Fault Refusal :=
  match fetch s with
  | .ok i s => execute i s
  | .raised k s => .next (enterFault k s)

end Sys2Proof.Machine
end

