-- ==== Sys2Proof/Machine/Illegal.lean ====
section
/-! DEFINITION. The illegal marker ILL (R84). -/

namespace Sys2Proof.Machine

/-- R84: ILL raises IllegalInstruction and writes nothing else. It never executes: in a cycle this raise is
fetch's (R74), and `execute` has no arm for ILL (R78). The opcode table's row has its effect here (the
model's arm, assumption 18). -/
def execIll (s : State) : Host.Outcome State Fault Refusal :=
  conclude (.raised .illegalInstruction s)

end Sys2Proof.Machine
end

