-- ==== Sys2Proof/Machine/Dispatch.lean ====
section
/-! DEFINITION. The effect of every row of spec/opcode_table.json, one arm per row. The arms of the eight
executable mnemonics are R77's dispatch, and `execute` (Sys2Proof/Machine/Execute.lean) agrees with them; the
arm of ILL is the effect R84 gives that row, which is fetch's raise and no part of execute (R78, assumption
18). No cycle calls it. -/

namespace Sys2Proof.Machine

def exec (i : Instr) (s : State) : Host.Outcome State Fault Refusal :=
  match i with
  | .ill _ => Sys2Proof.Machine.execIll s
  | .lit x => Sys2Proof.Machine.execLit x s
  | .lod x => Sys2Proof.Machine.execLod x s
  | .sto x => Sys2Proof.Machine.execSto x s
  | .add _ => Sys2Proof.Machine.execAdd s
  | .sub _ => Sys2Proof.Machine.execSub s
  | .mul _ => Sys2Proof.Machine.execMul s
  | .div _ => Sys2Proof.Machine.execDiv s
  | .wrt _ => Sys2Proof.Machine.execWrt s

end Sys2Proof.Machine
end

