-- ==== Sys2Proof/Machine/Step.lean ====
section
/-! DEFINITION. One step: one cycle, which STEP and each turn of RUN's loop start (R80, R81), in the one MODE
that allows it (R119). -/

namespace Sys2Proof.Machine

/-- One step. In MODE = Loaded it is one cycle. Before LOAD it is refused (R119), and after a fault the
machine takes none (R105). -/
def step (s : State) : Host.Outcome State Fault Refusal :=
  match s.mode with
  | .loaded => cycle s
  | .unloaded => .refused .stepBeforeLoad
  | .faulted => .fault (.terminal s.fault)

/-- s with the instruction whose table bits are w stored where `step` fetches next. It stands for a LOAD
from outside the machine (assumption 8). -/
def State.withFetchWord (s : State) (nbits w : Nat) : State := placeRecord (tableRecord nbits w) s

end Sys2Proof.Machine
end

