-- ==== Sys2Proof/Machine/Assembler.lean ====
section
/-! DEFINITION. The contract of the textual assembler, a collaborator outside the hardware (R4, R67 to R72).
Text is a list of ASCII bytes. -/

namespace Sys2Proof.Machine

/-- A byte that separates tokens: tab to carriage return, and space. The spec says only "whitespace"
(DESIGN CHOICE, assumption 24). -/
def isSpaceByte (b : Byte) : Bool := decide ((9 ≤ b.toNat ∧ b.toNat ≤ 13) ∨ b.toNat = 32)

/-- Split at whitespace; `cur` is the token read so far. -/
def tokensFrom (cur : List Byte) : List Byte → List (List Byte)
  | [] => if cur = [] then [] else [cur]
  | b :: bs =>
    if isSpaceByte b then
      if cur = [] then tokensFrom [] bs else cur :: tokensFrom [] bs
    else tokensFrom (cur ++ [b]) bs

/-- The tokens of a line (R67). -/
def tokens (line : List Byte) : List (List Byte) := tokensFrom [] line

/-- The upper-case form of an ASCII letter; any other byte unchanged. -/
def upperByte (b : Byte) : Byte :=
  if 0x61 ≤ b.toNat ∧ b.toNat ≤ 0x7A then BitVec.ofNat 8 (b.toNat - 32) else b

/-- The upper-case spelling of a mnemonic (R68), in ASCII. -/
def mnemonicText : Mnemonic → List Byte
  | .ILL => [0x49, 0x4C, 0x4C]
  | .LIT => [0x4C, 0x49, 0x54]
  | .LOD => [0x4C, 0x4F, 0x44]
  | .STO => [0x53, 0x54, 0x4F]
  | .ADD => [0x41, 0x44, 0x44]
  | .SUB => [0x53, 0x55, 0x42]
  | .MUL => [0x4D, 0x55, 0x4C]
  | .DIV => [0x44, 0x49, 0x56]
  | .WRT => [0x57, 0x52, 0x54]

/-- The mnemonic a token spells, without regard to case (R67, R68). -/
def parseMnemonic (tok : List Byte) : Option Mnemonic :=
  Mnemonic.all.find? fun m => mnemonicText m == tok.map upperByte

/-- The value of one or more decimal digits, after `acc`. -/
def parseDigitsFrom (acc : Nat) : List Byte → Option Nat
  | [] => some acc
  | b :: bs =>
    if 0x30 ≤ b.toNat ∧ b.toNat ≤ 0x39 then parseDigitsFrom (10 * acc + (b.toNat - 0x30)) bs else none

/-- One or more decimal digits. -/
def parseDigits (tok : List Byte) : Option Nat :=
  if tok = [] then none else parseDigitsFrom 0 tok

/-- An integer as a word, when it lies in the signed 32-bit range. -/
def wordInRange (v : Int) : Option Word :=
  if intMin ≤ v ∧ v ≤ intMax then some (BitVec.ofInt 32 v) else none

/-- The operand token (R70): an optional sign, then decimal digits, the value in range
(decision D19). -/
def parseOperand (tok : List Byte) : Option Word :=
  match tok with
  | [] => none
  | b :: bs =>
    if b = 0x2D then (parseDigits bs).bind fun n => wordInRange (-(n : Int))
    else if b = 0x2B then (parseDigits bs).bind fun n => wordInRange (n : Int)
    else (parseDigits tok).bind fun n => wordInRange (n : Int)

/-- A line of text as an instruction, or `none`: not parseable (R67 to R71). -/
def parseLine (line : List Byte) : Option Instr :=
  match tokens line with
  | [m] => (parseMnemonic m).bind fun m => if m.usesOperand then none else some (m.withOperand 0)
  | [m, x] =>
    (parseMnemonic m).bind fun m =>
      if m.usesOperand then (parseOperand x).bind fun x => some (m.withOperand x) else none
  | _ => none

/-- The rendering of an instruction (R72, decision D19). -/
def renderInstr (i : Instr) : List Byte :=
  if i.mnemonic.usesOperand then mnemonicText i.mnemonic ++ 0x20 :: dec i.operand
  else mnemonicText i.mnemonic

/-- The rendering of a record; an op that is none of the nine tags has none (R72). -/
def renderRecord (t : TagMap) (r : Record) : Option (List Byte) :=
  match decodeRecord t r with
  | .ok i => some (renderInstr i)
  | .error _ => none

end Sys2Proof.Machine
end

