-- ==== Sys2Proof/Machine/Commands.lean ====
section
/-! DEFINITION. The host interface (R119): CONSTRUCT, LOAD, STEP, RUN and READ, each a total function of the
state, and the run loop (R81, R82). -/

namespace Sys2Proof.Machine

/-- A host command with what the host hands over (R119). -/
inductive Command where
  /-- CONSTRUCT: the parameters, and what the sink bound to the new machine will answer. -/
  | construct (p : Params) (answers : List SinkAnswer)
  | load (seq : List Record)
  | step
  | run
  | read
deriving DecidableEq, Repr

/-- What READ returns: the tuple of R33, with `mem` written out word by word. -/
structure Observation where
  mode  : Mode
  fault : Option FaultKind
  ip    : Word
  sp    : Word
  mem   : List Word
  out   : List Byte
deriving DecidableEq, Repr

/-- What a command returns to the host (R119). -/
inductive Response where
  /-- CONSTRUCT returns nothing. -/
  | constructed
  /-- LOAD: ok. -/
  | loadOk
  /-- LOAD: the sequence's length differs from CODE_CAP (R103, R122). -/
  | codeSizeMismatch
  /-- STEP or RUN: no cycle raised a fault (R82). -/
  | completed
  /-- STEP or RUN: a cycle raised k (R82, R104). -/
  | faulted (k : FaultKind)
  /-- READ. -/
  | observed (o : Observation)
  /-- The command is not allowed in this MODE: no effect and no step (R119). -/
  | refused
deriving DecidableEq, Repr

/-- What the host sees (R33). -/
def observe (s : State) : Observation where
  mode := s.mode
  fault := s.fault
  ip := s.ip
  sp := s.sp
  mem := (List.range s.params.stackCap.val).map (wordAt s)
  out := s.out

/-- The end of a STEP or a RUN, read off the latch: Completed, or Faulted(k) (R82). -/
def respond (s : State) : Response :=
  match s.fault with
  | none => .completed
  | some k => .faulted k

/-- The loop of `Run()` (R81): at most n more cycles, RC counting each that raises nothing, stopping at
the first fault. -/
def runLoop : Nat → State → State
  | 0, s => s
  | n + 1, s =>
    match step s with
    | .next t =>
      match t.fault with
      | none => runLoop n (t.setRc (t.rc + 1))
      | some _ => t
    | .fault _ => s
    | .refused _ => s

/-- LOAD (R122): the whole code array at once, records unchanged, or nothing. -/
def issueLoad (seq : List Record) (s : State) : State × Response :=
  match s.mode with
  | .unloaded =>
    if seq.length = s.params.codeCap.val then (s.setCode seq, .loadOk) else (s, .codeSizeMismatch)
  | .loaded => (s, .refused)
  | .faulted => (s, .refused)

/-- STEP (R80): exactly one cycle. -/
def issueStep (s : State) : State × Response :=
  match step s with
  | .next t => (t, respond t)
  | .fault _ => (s, .refused)
  | .refused _ => (s, .refused)

/-- RUN (R81): RC from 0, then CODE_CAP cycles or fewer, ending at the first fault. -/
def issueRun (s : State) : State × Response :=
  match s.mode with
  | .loaded =>
    (runLoop s.params.codeCap.val (s.setRc 0), respond (runLoop s.params.codeCap.val (s.setRc 0)))
  | .unloaded => (s, .refused)
  | .faulted => (s, .refused)

/-- One host command: the machine after it, and what the host is told (R119). -/
def issue (c : Command) (s : State) : State × Response :=
  match c with
  | .construct p answers => (State.construct p answers, .constructed)
  | .load seq => issueLoad seq s
  | .step => issueStep s
  | .run => issueRun s
  | .read => (s, .observed (observe s))

end Sys2Proof.Machine
end

