-- ==== Sys2Proof/Machine/Container.lean ====
section
/-! DEFINITION. The program container: the byte format in which code reaches the core, decoded by the host
outside it (R60 to R66). -/

namespace Sys2Proof.Machine

/-- The parameter `MAGIC` (R6): four bytes, OPEN in the spec (D2, U10), so every function takes it. -/
structure Magic where
  m0 : Byte
  m1 : Byte
  m2 : Byte
  m3 : Byte
deriving DecidableEq, Repr

/-- The container errors of R103. None of them touches the core. -/
inductive FormatError where
  | signatureMismatch
  | versionMismatch
  | readError
  | writeError
deriving DecidableEq, Repr

/-- The `n` records at the head of a byte string, or ReadError where one is short (R61). -/
def readRecords : Nat → List Byte → Except FormatError (List Record)
  | 0, _ => .ok []
  | n + 1, bs =>
    match recordOfBytes bs with
    | none => .error .readError
    | some (r, rest) =>
      match readRecords n rest with
      | .ok rs => .ok (r :: rs)
      | .error e => .error e

/-- `Decode(stream)` (R61). The byte string is what the stream delivers: an I/O failure after k bytes is
a stream of k bytes, since both are ReadError. The whole header is read first, and a negative count
is a ReadError (decision D17). Records are not validated and e is not checked (R62). -/
def decodeContainer (magic : Magic) (bs : List Byte) : Except FormatError (List Record × Word) :=
  match bs with
  | a0 :: a1 :: a2 :: a3 :: v0 :: v1 :: v2 :: v3 :: n0 :: n1 :: n2 :: n3 :: e0 :: e1 :: e2 :: e3 :: body =>
    if (⟨a0, a1, a2, a3⟩ : Magic) ≠ magic then .error .signatureMismatch
    else if wordOfBytes v0 v1 v2 v3 ≠ 1 then .error .versionMismatch
    else if (wordOfBytes n0 n1 n2 n3).toInt < 0 then .error .readError
    else
      match readRecords (wordOfBytes n0 n1 n2 n3).toInt.toNat body with
      | .ok seq => .ok (seq, wordOfBytes e0 e1 e2 e3)
      | .error e => .error e
  | _ => .error .readError

/-- The count field of Encode: n, where it fits the signed 32-bit count. For a longer sequence the spec
states no count and no error, and the model writes a free value (DESIGN CHOICE, assumption 29). -/
def countWord (seq : List Record) : Word :=
  if fitsCount seq then BitVec.ofNat 32 seq.length else Config.oversizeCount seq.length

/-- The bytes `Encode(s, e)` writes (R64). A sequence of more than 2^31 - 1 records is encoded too, under a
free count (assumption 29). -/
def encodeContainer (magic : Magic) (seq : List Record) (e : Word) : List Byte :=
  [magic.m0, magic.m1, magic.m2, magic.m3] ++ bytesOfWord 1 ++
    bytesOfWord (countWord seq) ++ bytesOfWord e ++ seq.flatMap bytesOfRecord

/-- `Encode(s, e)` into a byte sink (R64). `room` is how many bytes the sink takes before it fails;
`none` is a sink that never fails. -/
def writeContainer (magic : Magic) (room : Option Nat) (seq : List Record) (e : Word) :
    Except FormatError (List Byte) :=
  match room with
  | none => .ok (encodeContainer magic seq e)
  | some k =>
    if (encodeContainer magic seq e).length ≤ k then .ok (encodeContainer magic seq e)
    else .error .writeError

/-- From container to core (R66, decision D18): CONSTRUCT with CODE_CAP the record count and ENTRY the
entry point, then LOAD the records. -/
def bootContainer (magic : Magic) (stackCap : Capacity) (tag : TagMap) (answers : List SinkAnswer)
    (bs : List Byte) : Except FormatError (State × Response) :=
  match decodeContainer magic bs with
  | .error e => .error e
  | .ok (seq, entry) =>
    .ok (issue (.load seq)
      (State.construct ⟨stackCap, Fin.ofNat 2147483648 seq.length, entry, tag⟩ answers))

end Sys2Proof.Machine
end

