-- ==== Sys2Proof/Safety.lean ====
section
/-! DEFINITION. What statements are made in: the invariant of the machine, and runs that raise no fault. -/

namespace Sys2Proof.Safety

open Sys2Proof Sys2Proof.Machine

/-- The invariant of every reachable state. -/
structure MachineInv (s : State) : Prop where
  /-- The listing of the stack/memory array is canonical. -/
  memCanonical : Memory.wf s.params.stackCap.val s.mem = true
  /-- R21: 0 <= SP. -/
  spLow : 0 ≤ s.sp.toInt
  /-- R21: SP <= max(0, STACK_CAP - 1). -/
  spHigh : s.sp.toInt ≤ max 0 (stackCap s - 1)
  /-- R28: MODE is Faulted exactly when FAULT is not none. -/
  faultLatched : s.mode = .faulted ↔ s.fault ≠ none
  /-- R122: after LOAD the code array holds CODE_CAP records. -/
  codeLoaded : s.mode ≠ .unloaded → s.code.length = s.params.codeCap.val
  /-- R18, R19: IP is ENTRY until the first successful fetch, and from then on in 1 to CODE_CAP. -/
  ipRange : s.ip = s.params.entry ∨ (1 ≤ s.ip.toInt ∧ s.ip.toInt ≤ codeCap s)
  /-- R29, R81: RC never passes CODE_CAP. -/
  rcBounded : s.rc ≤ s.params.codeCap.val

/-- The state after n steps none of which raises a fault, if there is one (R83). -/
def cleanSteps : Nat → State → Option State
  | 0, s => some s
  | n + 1, s =>
    match step s with
    | .next t => if t.fault = none then cleanSteps n t else none
    | .fault _ => none
    | .refused _ => none

/-- The instructions of a list executed one after another, up to the first that raises a fault: the
execute stages of a straight piece of code. ILL cannot stand in it (R78). -/
def execAll : List Executable → State → Host.Outcome State Fault Refusal
  | [], s => .next s
  | i :: is, s =>
    match execute i s with
    | .next t => if t.fault = none then execAll is t else .next t
    | .fault r => .fault r
    | .refused r => .refused r

end Sys2Proof.Safety
end

