-- ==== Sys2Proof/Certificates/Slice0/Obligations.lean ====
section
/-! DEFINITION. The statements for the provers. -/

open Sys2Proof Sys2Proof.Machine Sys2Proof.Safety

/-! ## Encoding -/

/-- Decoding the bytes of any instruction gives it back, with every operand, under every injective TAG,
whatever bytes follow (R51, R55, R56, R76). -/
def Obligations.DecodeOfEncodeIsInstruction : Prop :=
  ∀ (t : TagMap) (i : Instr) (rest : List Byte), t.injective = true →
    decodeBytes t (encode t i ++ rest) = .ok (i, rest)

/-- Bytes that decode to an instruction are its encoding: decoding drops no bit (R51, R55, R56). -/
def Obligations.EncodeOfDecodeIsBytes : Prop :=
  ∀ (t : TagMap) (bs rest : List Byte) (i : Instr),
    decodeBytes t bs = .ok (i, rest) → bs = encode t i ++ rest

/-- Words written out from the spec's own vectors and table decode to what they stand for (R53, R55,
95_test_vectors.md sections 1 and 10). Two's complement and the little-endian reading are general knowledge
(93_implementation_defined.md K3 and K4, assumption 20), and the default TAG is decision D1 (assumption 2). -/
def Obligations.SpecWordsDecode : Prop :=
  decodeTableWord 64 0x0000000000000000 = some (.ill 0) ∧
  decodeTableWord 64 0xFFFFFFFE00000001 = some (.lit (-2)) ∧
  decodeTableWord 64 0x0000000600000002 = some (.lod 6) ∧
  decodeTableWord 64 0x0000000500000003 = some (.sto 5) ∧
  decodeTableWord 64 0x0000000000000005 = some (.sub 0) ∧
  decodeTableWord 32 0x00000008 = some (.wrt 0) ∧
  decodeTableWord 64 0x0000000000000009 = none

/-- The eight bytes of a record, read as one little-endian number, are u32(x) ++ u32(op) (R53). That byte k
has weight 256^k is general knowledge (93_implementation_defined.md K4, assumption 20). -/
def Obligations.RecordBytesAreTableWord : Prop :=
  ∀ r : Record, (bytesOfRecord r).length = 8 ∧
    (bytesOfRecord r).foldr (fun b n => b.toNat + 256 * n) 0 = r.op.toNat + 4294967296 * r.x.toNat ∧
    tableRecord 64 (r.op.toNat + 4294967296 * r.x.toNat) = r

/-- Exactly the op values of LEGAL decode to an instruction that fetch lets through; with the default TAG
these are 1 to 8 (R55, R58, R74, R76). -/
def Obligations.LegalOpcodesAreExactlyLegal : Prop :=
  (∀ (t : TagMap) (r : Record), t.injective = true →
    ((∃ i, decodeRecord t r = .ok i ∧ i.executable = true) ↔ r.op ∈ legalOps t)) ∧
  (∀ op : Word, op ∈ legalOps TagMap.default ↔ 1 ≤ op.toInt ∧ op.toInt ≤ 8)

/-! ## The bounds checker and the stack primitives -/

/-- R38, whole: the bounds-checked read. -/
def Obligations.MemReadChecksBounds : Prop :=
  ∀ (s : State) (i : Int),
    (i < 0 ∨ stackCap s ≤ i → memRead i s = .raised .memoryError s) ∧
    (0 ≤ i → i < stackCap s → memRead i s = .ok (wordAt s i.toNat) s)

/-- R39, whole: an index out of range raises and writes nothing; otherwise that one word takes v, and
every other word and everything else stays. -/
def Obligations.MemWriteStoresOneWord : Prop :=
  ∀ (s : State) (i : Int) (v : Word),
    (i < 0 ∨ stackCap s ≤ i → memWrite i v s = .raised .memoryError s) ∧
    (0 ≤ i → i < stackCap s → ∃ m, memWrite i v s = .ok () { s with mem := m } ∧
      ∀ j : Nat, Memory.word m j = if (j : Int) = i then v else wordAt s j)

/-- R40 and R41: the ceiling of IncSP is STACK_CAP - 1 (tested with >=, decision D13), the floor of
DecSP is 0, and otherwise SP moves by one and nothing else changes. -/
def Obligations.StackPointerPrimitives : Prop :=
  ∀ s : State,
    (stackCap s - 1 ≤ s.sp.toInt → incSP s = .raised .stackOverflow s) ∧
    (s.sp.toInt < stackCap s - 1 → ∃ p : Word, p.toInt = s.sp.toInt + 1 ∧ incSP s = .ok () { s with sp := p }) ∧
    (s.sp.toInt ≤ 0 → decSP s = .raised .stackOverflow s) ∧
    (0 < s.sp.toInt → ∃ p : Word, p.toInt = s.sp.toInt - 1 ∧ decSP s = .ok () { s with sp := p })

/-! ## What each instruction does where it completes -/

/-- LIT (R86): below the ceiling, the literal is written at SP, SP rises by one, and nothing else
changes. -/
def Obligations.LitPushesItsLiteral : Prop :=
  ∀ (s : State) (x : Word), 0 ≤ s.sp.toInt → s.sp.toInt < stackCap s - 1 →
    ∃ m p, exec (.lit x) s = .next { s with mem := m, sp := p } ∧ p.toInt = s.sp.toInt + 1 ∧
      ∀ j : Nat, Memory.word m j = if (j : Int) = pushIndex s then x else wordAt s j

/-- LOD (R87): with X in range and SP below the ceiling, word X is written at SP, SP rises by one, and
nothing else changes. -/
def Obligations.LodPushesTheWordAtX : Prop :=
  ∀ (s : State) (x : Word), 0 ≤ dataIndex x → dataIndex x < stackCap s →
    0 ≤ s.sp.toInt → s.sp.toInt < stackCap s - 1 →
    ∃ m p, exec (.lod x) s = .next { s with mem := m, sp := p } ∧ p.toInt = s.sp.toInt + 1 ∧
      ∀ j : Nat, Memory.word m j =
        if (j : Int) = pushIndex s then wordAt s (dataIndex x).toNat else wordAt s j

/-- STO (R88): with an entry on the stack and X in range, word X takes the top, SP falls by one, and
nothing else changes; X may lie anywhere in the array, below, at or above the top. -/
def Obligations.StoStoresTheTopAtX : Prop :=
  ∀ (s : State) (x : Word), 1 ≤ s.sp.toInt → s.sp.toInt ≤ stackCap s →
    0 ≤ dataIndex x → dataIndex x < stackCap s →
    ∃ m p, exec (.sto x) s = .next { s with mem := m, sp := p } ∧ p.toInt = s.sp.toInt - 1 ∧
      ∀ j : Nat, Memory.word m j =
        if (j : Int) = dataIndex x then wordAt s (topIndex s).toNat else wordAt s j

/-- ADD (R91, R93): with two entries whose exact sum fits, the sum replaces the earlier one, SP falls by
one, and nothing else changes. -/
def Obligations.AddWritesTheExactSum : Prop :=
  ∀ (s : State) (x : Word), 2 ≤ s.sp.toInt → s.sp.toInt ≤ stackCap s →
    In32 ((wordAt s (topIndex s).toNat).toInt + (wordAt s (secondIndex s).toNat).toInt) →
    ∃ m p r, exec (.add x) s = .next { s with mem := m, sp := p } ∧ p.toInt = s.sp.toInt - 1 ∧
      r.toInt = (wordAt s (topIndex s).toNat).toInt + (wordAt s (secondIndex s).toNat).toInt ∧
      ∀ j : Nat, Memory.word m j = if (j : Int) = secondIndex s then r else wordAt s j

/-- SUB (R91, R94): with two entries whose exact difference, earlier minus later, fits, it replaces the
earlier one, SP falls by one, and nothing else changes. -/
def Obligations.SubWritesEarlierMinusLater : Prop :=
  ∀ (s : State) (x : Word), 2 ≤ s.sp.toInt → s.sp.toInt ≤ stackCap s →
    In32 ((wordAt s (secondIndex s).toNat).toInt - (wordAt s (topIndex s).toNat).toInt) →
    ∃ m p r, exec (.sub x) s = .next { s with mem := m, sp := p } ∧ p.toInt = s.sp.toInt - 1 ∧
      r.toInt = (wordAt s (secondIndex s).toNat).toInt - (wordAt s (topIndex s).toNat).toInt ∧
      ∀ j : Nat, Memory.word m j = if (j : Int) = secondIndex s then r else wordAt s j

/-- MUL (R91, R95): with two entries whose exact product fits, it replaces the earlier one, SP falls by
one, and nothing else changes. -/
def Obligations.MulWritesTheExactProduct : Prop :=
  ∀ (s : State) (x : Word), 2 ≤ s.sp.toInt → s.sp.toInt ≤ stackCap s →
    In32 ((wordAt s (topIndex s).toNat).toInt * (wordAt s (secondIndex s).toNat).toInt) →
    ∃ m p r, exec (.mul x) s = .next { s with mem := m, sp := p } ∧ p.toInt = s.sp.toInt - 1 ∧
      r.toInt = (wordAt s (topIndex s).toNat).toInt * (wordAt s (secondIndex s).toNat).toInt ∧
      ∀ j : Nat, Memory.word m j = if (j : Int) = secondIndex s then r else wordAt s j

/-- DIV (R91, R92, R96): with a non-zero later entry, and not INT_MIN by -1, the quotient of the earlier
by the later replaces the earlier one: its magnitude is floor(|b| / |a|), and it is negative exactly when
the signs are opposite and the magnitude is not zero. SP falls by one, and nothing else changes. -/
def Obligations.DivWritesTheTruncatedQuotient : Prop :=
  ∀ (s : State) (x : Word) (a b : Int),
    a = (wordAt s (topIndex s).toNat).toInt → b = (wordAt s (secondIndex s).toNat).toInt →
    2 ≤ s.sp.toInt → s.sp.toInt ≤ stackCap s → a ≠ 0 → ¬ (a = -1 ∧ b = intMin) →
    ∃ m p r, exec (.div x) s = .next { s with mem := m, sp := p } ∧ p.toInt = s.sp.toInt - 1 ∧
      r.toInt.natAbs = b.natAbs / a.natAbs ∧
      (r.toInt < 0 ↔ ((b < 0 ∧ 0 < a) ∨ (0 < b ∧ a < 0)) ∧ b.natAbs / a.natAbs ≠ 0) ∧
      ∀ j : Nat, Memory.word m j = if (j : Int) = secondIndex s then r else wordAt s j

/-- WRT (R98, R99): with an entry on the stack and a sink that accepts, the top's rendering and a newline
are appended to OUT, SP falls by one, the sink has answered one transfer (the model's own fields,
assumption 6), and nothing else changes. The newline byte 0x0A is general knowledge
(93_implementation_defined.md K1, assumption 19). -/
def Obligations.WrtAppendsTheTopInDecimal : Prop :=
  ∀ (s : State) (x : Word), 1 ≤ s.sp.toInt → s.sp.toInt ≤ stackCap s → sinkAnswer s = .accept →
    ∃ p, exec (.wrt x) s = .next { s with
        sp := p
        out := s.out ++ dec (wordAt s (topIndex s).toNat) ++ [0x0A]
        sinkAnswers := s.sinkAnswers.tail
        transfers := s.transfers + 1 } ∧
      p.toInt = s.sp.toInt - 1

/-- ILL (R84): its whole effect is to raise IllegalInstruction, writing nothing else. The first clause is
about `exec`'s arm for ILL, which is the model's: the spec's execute has none (R78, assumption 18). A step
that fetches a record with op = TAG(ILL), whatever its x, does exactly this, and IP is not advanced
(decision D7, assumption 11). -/
def Obligations.IllRaisesIllegalInstruction : Prop :=
  (∀ (s : State) (x : Word),
    exec (.ill x) s = .next { s with fault := some .illegalInstruction, mode := .faulted }) ∧
  (∀ s : State, s.params.tag.injective = true → s.mode = .loaded →
    0 ≤ s.ip.toInt → s.ip.toInt < codeCap s → (codeAt s s.ip.toInt.toNat).op = s.params.tag.ill →
    step s = .next { s with fault := some .illegalInstruction, mode := .faulted })

/-- R100: dec(v) is a minus sign exactly for a negative v, then one to ten ASCII digits without a leading
zero whose value is |v|, so that with its newline a transfer is 2 to 12 bytes (R101). ASCII, no plus sign
and no padding are general knowledge (93_implementation_defined.md K1, assumption 19). -/
def Obligations.DecIsTheDecimalRendering : Prop :=
  ∀ v : Word, ∃ sign digits : List Byte, dec v = sign ++ digits ∧
    sign = (if v.toInt < 0 then [0x2D] else []) ∧
    1 ≤ digits.length ∧ digits.length ≤ 10 ∧
    (∀ b ∈ digits, 0x30 ≤ b.toNat ∧ b.toNat ≤ 0x39) ∧
    (digits.head? = some 0x30 → digits = [0x30]) ∧
    digits.foldl (fun n b => 10 * n + (b.toNat - 0x30)) 0 = v.toInt.natAbs

/-! ## Where each instruction faults -/

/-- LIT and LOD at the ceiling (R40, R86, R87): StackOverflow, with SP, OUT and every word but the
sentinel slot unchanged. What the sentinel slot then holds rests on decision D5 and is left unsaid
(93_implementation_defined.md U2, assumption 9). -/
def Obligations.PushAtTheCeilingOverflows : Prop :=
  ∀ (s : State) (x : Word), 1 ≤ stackCap s → s.sp.toInt = stackCap s - 1 →
    (∃ m, exec (.lit x) s = .next { s with mem := m, fault := some .stackOverflow, mode := .faulted } ∧
      ∀ j : Nat, (j : Int) ≠ stackCap s - 1 → Memory.word m j = wordAt s j) ∧
    (0 ≤ dataIndex x → dataIndex x < stackCap s →
      ∃ m, exec (.lod x) s = .next { s with mem := m, fault := some .stackOverflow, mode := .faulted } ∧
        ∀ j : Nat, (j : Int) ≠ stackCap s - 1 → Memory.word m j = wordAt s j)

/-- LOD and STO with X out of range (R87, R88, R107): MemoryError and no other effect; on a full stack
too, since LOD reads before it pushes, and SP is not decremented by a failed STO. -/
def Obligations.OperandOutOfRangeIsMemoryError : Prop :=
  ∀ (s : State) (x : Word), dataIndex x < 0 ∨ stackCap s ≤ dataIndex x →
    exec (.lod x) s = .next { s with fault := some .memoryError, mode := .faulted } ∧
    (1 ≤ s.sp.toInt → s.sp.toInt ≤ stackCap s →
      exec (.sto x) s = .next { s with fault := some .memoryError, mode := .faulted })

/-- A stack with too few entries (R91, R106, R107): STO and WRT on none, ADD, SUB, MUL and DIV on fewer than
two, raise a fault and have no other effect. Which kind they report is left unsaid
(93_implementation_defined.md U3, assumption 10). -/
def Obligations.TooFewEntriesFault : Prop :=
  ∀ (s : State) (x : Word),
    (s.sp.toInt ≤ 0 → ∀ i ∈ [Instr.sto x, .wrt x],
      ∃ k, exec i s = .next { s with fault := some k, mode := .faulted }) ∧
    (s.sp.toInt ≤ 1 → ∀ i ∈ [Instr.add x, .sub x, .mul x, .div x],
      ∃ k, exec i s = .next { s with fault := some k, mode := .faulted })

/-- With two entries, ADD, SUB and MUL raise ArithmeticOverflow exactly when the exact result does not fit,
and DIV exactly for INT_MIN by -1; nothing else changes (R90, R107). For MUL this is the spec's decision
D12 (assumption 14). -/
def Obligations.OverflowFaultsExactlyOutOfRange : Prop :=
  ∀ (s : State) (x : Word) (a b : Int),
    a = (wordAt s (topIndex s).toNat).toInt → b = (wordAt s (secondIndex s).toNat).toInt →
    2 ≤ s.sp.toInt → s.sp.toInt ≤ stackCap s → s.fault = none →
    (exec (.add x) s = .next { s with fault := some .arithmeticOverflow, mode := .faulted } ↔ ¬ In32 (a + b)) ∧
    (exec (.sub x) s = .next { s with fault := some .arithmeticOverflow, mode := .faulted } ↔ ¬ In32 (b - a)) ∧
    (exec (.mul x) s = .next { s with fault := some .arithmeticOverflow, mode := .faulted } ↔ ¬ In32 (a * b)) ∧
    (exec (.div x) s = .next { s with fault := some .arithmeticOverflow, mode := .faulted } ↔
      a = -1 ∧ b = intMin)

/-- DIV by zero (R96, R107): with two entries and a later one of zero, whatever the earlier, DivideByZero
and no other effect. -/
def Obligations.DivByZeroFaults : Prop :=
  ∀ (s : State) (x : Word), 2 ≤ s.sp.toInt → s.sp.toInt ≤ stackCap s →
    (wordAt s (topIndex s).toNat).toInt = 0 →
    exec (.div x) s = .next { s with fault := some .divideByZero, mode := .faulted }

/-- WRT into a sink that fails with e (R98, R99): OutputError(e), OUT and every word unchanged. SP is left
unsaid (decision D6, 93_implementation_defined.md U15, assumption 10). -/
def Obligations.SinkFailureIsOutputError : Prop :=
  ∀ (s : State) (x : Word) (e : SinkError), 1 ≤ s.sp.toInt → s.sp.toInt ≤ stackCap s →
    sinkAnswer s = .fail e →
    ∃ p, exec (.wrt x) s = .next { s with
      sp := p
      fault := some (.outputError e)
      mode := .faulted
      sinkAnswers := s.sinkAnswers.tail
      transfers := s.transfers + 1 }

/-- With STACK_CAP = 0 every instruction raises a fault and has no other effect (decision D16,
93_implementation_defined.md U16, assumption 16). -/
def Obligations.EmptyArrayFaultsEveryInstruction : Prop :=
  ∀ (s : State) (i : Instr), stackCap s = 0 →
    ∃ k, exec i s = .next { s with fault := some k, mode := .faulted }

/-! ## Frames and rules of the whole machine -/

/-- OUT starts empty and only grows, over an instruction, a step and every host command but the
construction of a new machine (R25); it gains bytes exactly when the sink has accepted a transfer, counted
by the model's own counter (R99, assumption 6); and only WRT appends to it, the top in decimal and a newline
(R98), whose byte 0x0A is general knowledge (93_implementation_defined.md K1, assumption 19). -/
def Obligations.OutOnlyGrowsAndOnlyByWrt : Prop :=
  (∀ p answers, (State.construct p answers).out = []) ∧
  (∀ (i : Instr) (s t : State), exec i s = .next t →
    s.out <+: t.out ∧
    (t.out ≠ s.out ↔ t.transfers ≠ s.transfers ∧ sinkAnswer s = .accept) ∧
    (t.out ≠ s.out → i.mnemonic = .WRT ∧
      t.out = s.out ++ dec (wordAt s (topIndex s).toNat) ++ [0x0A])) ∧
  (∀ s t : State, step s = .next t → s.out <+: t.out) ∧
  (∀ (c : Command) (s : State), (∀ p answers, c ≠ .construct p answers) → s.out <+: (issue c s).1.out)

/-- Registers and run control (R18, R24, R27, R28): no instruction changes IP, the code array, RC (which RUN's
loop counts, R81; outside a RUN that it stays is the model's choice, assumption 17) or a parameter; MODE and FAULT stay as they are or the step faults; and only WRT makes a transfer on the port,
at most one (R101). -/
def Obligations.InstructionFrame : Prop :=
  ∀ (i : Instr) (s t : State), exec i s = .next t →
    t.ip = s.ip ∧ t.code = s.code ∧ t.rc = s.rc ∧ t.params = s.params ∧
    ((t.fault = s.fault ∧ t.mode = s.mode) ∨ (∃ k, t.fault = some k ∧ t.mode = .faulted)) ∧
    ((t.transfers = s.transfers ∧ t.sinkAnswers = s.sinkAnswers ∧ t.out = s.out) ∨
      (i.mnemonic = .WRT ∧ t.transfers = s.transfers + 1 ∧ t.sinkAnswers = s.sinkAnswers.tail))

/-- Memory (R37, R86 to R98): LIT and LOD store to the word at SP, STO to word X, ADD, SUB, MUL and DIV to
the word of the earlier operand, ILL and WRT to none. Every other word reads as before, whether the
instruction completes or faults. -/
def Obligations.MemoryFrame : Prop :=
  ∀ (i : Instr) (s t : State), exec i s = .next t →
    ∀ j : Nat,
      (match i with
        | .lit _ => (j : Int) ≠ pushIndex s
        | .lod _ => (j : Int) ≠ pushIndex s
        | .sto x => (j : Int) ≠ dataIndex x
        | .add _ => (j : Int) ≠ secondIndex s
        | .sub _ => (j : Int) ≠ secondIndex s
        | .mul _ => (j : Int) ≠ secondIndex s
        | .div _ => (j : Int) ≠ secondIndex s
        | .ill _ => True
        | .wrt _ => True) →
      wordAt t j = wordAt s j

/-- No instruction is a no-op (R129): one that raises no fault moves SP, LIT and LOD up by one and the six
others down by one. -/
def Obligations.CompletingInstructionMovesSp : Prop :=
  ∀ (i : Instr) (s t : State), exec i s = .next t → t.fault = none →
    ((i.mnemonic = .LIT ∨ i.mnemonic = .LOD) ∧ t.sp.toInt = s.sp.toInt + 1) ∨
    (i.mnemonic ∈ [.STO, .ADD, .SUB, .MUL, .DIV, .WRT] ∧ t.sp.toInt = s.sp.toInt - 1)

/-- What a faulting instruction leaves (R104, R107), from a reachable state that has not faulted: OUT
unchanged, every word but the sentinel slot unchanged, and SP unchanged unless the sink failed. -/
def Obligations.FaultLeavesStateButSentinel : Prop :=
  ∀ (i : Instr) (s t : State) (k : FaultKind), MachineInv s → s.fault = none → exec i s = .next t →
    t.fault = some k →
    t.out = s.out ∧ t.mode = .faulted ∧
    (∀ j : Nat, (j : Int) ≠ stackCap s - 1 → wordAt t j = wordAt s j) ∧
    ((∃ e, k = .outputError e) ∨ t.sp = s.sp)

/-- Who can raise what (R102): at execute, IllegalInstruction is ILL's alone, ArithmeticOverflow comes from
the four arithmetic instructions, DivideByZero from DIV, OutputError from WRT with the sink's own error.
MemoryError and StackOverflow are left open here (93_implementation_defined.md U3). -/
def Obligations.FaultKindsByInstruction : Prop :=
  ∀ (i : Instr) (s t : State) (k : FaultKind), s.fault = none → exec i s = .next t → t.fault = some k →
    (k = .illegalInstruction → i.mnemonic = .ILL) ∧
    (k = .arithmeticOverflow → i.mnemonic ∈ [.ADD, .SUB, .MUL, .DIV]) ∧
    (k = .divideByZero → i.mnemonic = .DIV) ∧
    (∀ e, k = .outputError e → i.mnemonic = .WRT ∧ sinkAnswer s = .fail e)

/-- R57: a step on a record of a zero-operand opcode does the same whatever its x: the next state
differs from that of x = 0 in the record itself alone, and a stop is the same stop. -/
def Obligations.ZeroOperandIgnoresX : Prop :=
  ∀ (s : State) (n : Nat) (m : Mnemonic) (x : Word), s.params.tag.injective = true →
    m.usesOperand = false →
    (∀ t, step { s with code := s.code.set n ⟨s.params.tag.of m, x⟩ } = .next t →
      step { s with code := s.code.set n ⟨s.params.tag.of m, 0⟩ } =
        .next { t with code := s.code.set n ⟨s.params.tag.of m, 0⟩ }) ∧
    (∀ r, step { s with code := s.code.set n ⟨s.params.tag.of m, x⟩ } = .fault r →
      step { s with code := s.code.set n ⟨s.params.tag.of m, 0⟩ } = .fault r) ∧
    (∀ r, step { s with code := s.code.set n ⟨s.params.tag.of m, x⟩ } = .refused r →
      step { s with code := s.code.set n ⟨s.params.tag.of m, 0⟩ } = .refused r)

/-- R97: on any machine that has not faulted, LIT a; LIT b; OP; WRT and LIT b; LIT a; OP; WRT give the same
OUT and the same fault for ADD and MUL; with room for two entries, LIT p; LIT q; SUB leaves p - q on top
and LIT p; LIT q; DIV the quotient of p by q truncated toward zero. That the two orders of MUL agree in the
fault for INT_MIN by -1 is decision D12 (assumption 14). -/
def Obligations.OrderLawsOfArithmetic : Prop :=
  (∀ (s : State) (a b : Word) (op : Executable), (op.val = .add 0 ∨ op.val = .mul 0) → s.fault = none →
    ∃ t u, execAll [⟨.lit a, rfl⟩, ⟨.lit b, rfl⟩, op, ⟨.wrt 0, rfl⟩] s = .next t ∧
      execAll [⟨.lit b, rfl⟩, ⟨.lit a, rfl⟩, op, ⟨.wrt 0, rfl⟩] s = .next u ∧ t.out = u.out ∧ t.fault = u.fault) ∧
  (∀ (s : State) (p q : Word), s.fault = none → 0 ≤ s.sp.toInt → s.sp.toInt + 2 ≤ stackCap s - 1 →
    (In32 (p.toInt - q.toInt) →
      ∃ t, execAll [⟨.lit p, rfl⟩, ⟨.lit q, rfl⟩, ⟨.sub 0, rfl⟩] s = .next t ∧ t.fault = none ∧
        (wordAt t (topIndex t).toNat).toInt = p.toInt - q.toInt) ∧
    (q.toInt ≠ 0 → ¬ (q.toInt = -1 ∧ p.toInt = intMin) →
      ∃ t, execAll [⟨.lit p, rfl⟩, ⟨.lit q, rfl⟩, ⟨.div 0, rfl⟩] s = .next t ∧ t.fault = none ∧
        (wordAt t (topIndex t).toNat).toInt = Int.tdiv p.toInt q.toInt))

/-! ## Fetch and step -/

/-- A step runs the instruction decoded at IP (R74 to R77, R80): for the eight executable opcodes it is
exec of it on the state whose IP is one higher and is otherwise the same. For ILL, fetch's raise is what
`exec`'s arm for ILL gives on the state itself: that arm is the model's, since the spec's execute has none
(R78, assumption 18), and the unmoved IP is decision D7 (assumption 11). -/
def Obligations.StepRunsTheDecodedInstruction : Prop :=
  ∀ (s : State) (i : Instr), s.mode = .loaded → 0 ≤ s.ip.toInt → s.ip.toInt < codeCap s →
    decodeRecord s.params.tag (codeAt s s.ip.toInt.toNat) = .ok i →
    (i.executable = true → ∃ p : Word, p.toInt = s.ip.toInt + 1 ∧ step s = exec i { s with ip := p }) ∧
    (i.executable = false → step s = exec i s)

/-- The fetch check (R74): an IP out of bounds, or an op outside LEGAL, raises IllegalInstruction and
changes nothing else. That IP is not advanced is decision D7 (assumption 11). -/
def Obligations.FetchRejectsIllegal : Prop :=
  ∀ s : State, s.params.tag.injective = true → s.mode = .loaded →
    (s.ip.toInt < 0 ∨ codeCap s ≤ s.ip.toInt ∨
      (codeAt s s.ip.toInt.toNat).op ∉ legalOps s.params.tag) →
    step s = .next { s with fault := some .illegalInstruction, mode := .faulted }

/-- R75: a successful fetch advances IP by exactly one, which cannot overflow, before the instruction
executes, and changes nothing else; and no instruction, LOAD or READ writes IP. -/
def Obligations.IpAdvancesBeforeExecute : Prop :=
  (∀ (s t : State) (i : Executable), fetch s = .ok i t →
    t = { s with ip := t.ip } ∧ t.ip.toInt = s.ip.toInt + 1 ∧
    (s.mode = .loaded → step s = exec i.val t)) ∧
  (∀ (i : Instr) (s t : State), exec i s = .next t → t.ip = s.ip) ∧
  (∀ (s : State) (seq : List Record),
    (issue (.load seq) s).1.ip = s.ip ∧ (issue .read s).1.ip = s.ip)

/-- Execute sees the eight executable mnemonics only (R74, R76, R78): what fetch hands on is the record at an
IP in bounds, its op in LEGAL and, for an injective TAG, not TAG(ILL), X unchanged; and a step applies to it
the execute stage, which gives what that opcode's arm of `exec` gives. -/
def Obligations.ExecuteSeesOnlyExecutable : Prop :=
  ∀ (s t : State) (i : Executable), fetch s = .ok i t →
    0 ≤ s.ip.toInt ∧ s.ip.toInt < codeCap s ∧
    codeAt s s.ip.toInt.toNat = encodeRecord s.params.tag i.val ∧
    (codeAt s s.ip.toInt.toNat).op ∈ legalOps s.params.tag ∧
    (s.params.tag.injective = true → (codeAt s s.ip.toInt.toNat).op ≠ s.params.tag.ill) ∧
    i.val.mnemonic ≠ .ILL ∧
    (s.mode = .loaded → step s = execute i t) ∧ execute i t = exec i.val t

/-- A step exists in MODE = Loaded only (R105, R119): there it always answers a next state. Before LOAD it
is refused and after a fault the machine takes none (decisions D8 and D11, assumption 12). -/
def Obligations.StepExistsOnlyWhenLoaded : Prop :=
  ∀ s : State, ((∃ t, step s = .next t) ↔ s.mode = .loaded) ∧
    (s.mode = .unloaded → step s = .refused .stepBeforeLoad) ∧
    (s.mode = .faulted → step s = .fault (.terminal s.fault))

/-- MODE and FAULT over a step from a reachable state (R82, R104, R123): Loaded with no fault, or
Faulted with one. -/
def Obligations.StepCompletesOrFaults : Prop :=
  ∀ s t : State, MachineInv s → step s = .next t →
    (t.mode = .loaded ∧ t.fault = none) ∨ (t.mode = .faulted ∧ ∃ k, t.fault = some k)

/-- n steps none of which faults, from MODE = Loaded, advance IP by exactly n (R75, R83), and leave the
parameters (R28) and the code array (R24) as they were. RC stays as it was too: it is RUN's loop that counts
(R81), not the cycle (R80), and that RC keeps its value outside a RUN is the model's choice
(assumption 17). -/
def Obligations.IpAfterCleanSteps : Prop :=
  ∀ (n : Nat) (s t : State), cleanSteps n s = some t →
    t.ip.toInt = s.ip.toInt + n ∧ t.params = s.params ∧ t.code = s.code ∧ t.rc = s.rc

/-! ## The invariant -/

/-- Every constructed machine, the reset state among them, meets the invariant. -/
def Obligations.InvariantAtReset : Prop :=
  MachineInv State.reset ∧ ∀ p answers, MachineInv (State.construct p answers)

/-- Every step keeps the invariant (R19, R21, R28, R122): the canonical array (the model's listing, assumption 3), 0 <= SP <=
max(0, STACK_CAP - 1), IP at ENTRY or in 1 to CODE_CAP, FAULT set exactly in MODE = Faulted, a full code
array once loaded. -/
def Obligations.InvariantKeptByStep : Prop :=
  ∀ s t : State, MachineInv s → step s = .next t → MachineInv t

/-- Every host command keeps the invariant, RUN with all its cycles among them (R119). -/
def Obligations.InvariantKeptByCommands : Prop :=
  ∀ (c : Command) (s : State), MachineInv s → MachineInv (issue c s).1

/-! ## Reset and the host interface -/

/-- Construction (R32, R120, R121): IP = ENTRY unchecked, SP = 0 (decision D3), OUT empty, FAULT none, MODE
Unloaded, RC = 0, every word at the free MEM_INIT (decision D4); the model's own counter starts at 0
(DESIGN CHOICE, assumption 6). -/
def Obligations.ConstructSetsResetValues : Prop :=
  ∀ (c : State) (p : Params) (answers : List SinkAnswer) (t : State) (r : Response),
    issue (.construct p answers) c = (t, r) →
    r = .constructed ∧ t.params = p ∧ t.ip = p.entry ∧ t.sp.toInt = 0 ∧ t.out = [] ∧ t.fault = none ∧
    t.mode = .unloaded ∧ t.rc = 0 ∧ t.transfers = 0 ∧ ∀ i, wordAt t i = Config.memInit i

/-- LOAD (R122): in MODE = Unloaded, a sequence of the wrong length changes nothing and is told
CodeSizeMismatch; one of the right length replaces the whole code array, records unchanged, sets MODE to
Loaded and changes nothing else. That a mismatch leaves MODE = Unloaded is decision D11
(assumption 12). -/
def Obligations.LoadReplacesTheCodeArray : Prop :=
  ∀ (s : State) (seq : List Record), s.mode = .unloaded →
    (seq.length ≠ s.params.codeCap.val → issue (.load seq) s = (s, .codeSizeMismatch)) ∧
    (seq.length = s.params.codeCap.val →
      issue (.load seq) s = ({ s with code := seq, mode := .loaded }, .loadOk) ∧
      ∀ i (h : i < seq.length), codeAt (issue (.load seq) s).1 i = seq[i])

/-- A command in a MODE not listed for it is refused with no effect, and READ has none in any MODE and
returns the words of the array in order (R33, R105, R119; decisions D8, D10 and D11, assumption 12). -/
def Obligations.CommandsRefusedOutsideTheirMode : Prop :=
  ∀ (s : State) (seq : List Record),
    (s.mode ≠ .loaded → issue .step s = (s, .refused) ∧ issue .run s = (s, .refused)) ∧
    (s.mode ≠ .unloaded → issue (.load seq) s = (s, .refused)) ∧
    ∃ o, issue .read s = (s, .observed o) ∧ o.mode = s.mode ∧ o.fault = s.fault ∧ o.ip = s.ip ∧
      o.sp = s.sp ∧ o.out = s.out ∧ o.mem.length = s.params.stackCap.val ∧
      ∀ i (h : i < o.mem.length), o.mem[i] = wordAt s i

/-- The end of a RUN from a reachable state (R81, R82): Completed with RC = CODE_CAP, FAULT none and MODE
Loaded, having taken CODE_CAP clean steps; or Faulted(k) with FAULT = k, MODE Faulted and RC the number of
cycles that completed before it. That RC counts from 0 on each RUN is decision D20 (assumption 17). -/
def Obligations.RunCompletesOrFaults : Prop :=
  ∀ s : State, MachineInv s → s.mode = .loaded →
    (∃ t, issue .run s = (t, .completed) ∧ t.rc = s.params.codeCap.val ∧ t.fault = none ∧ t.mode = .loaded ∧
      ∃ u, cleanSteps s.params.codeCap.val s = some u ∧ t = { u with rc := s.params.codeCap.val }) ∨
    (∃ t k, issue .run s = (t, .faulted k) ∧ t.fault = some k ∧ t.mode = .faulted ∧
      t.rc < s.params.codeCap.val ∧
      ∃ u v, cleanSteps t.rc s = some u ∧ step u = .next v ∧ t = { v with rc := t.rc })

/-- R83 items 2 and 4: a RUN that completes with CODE_CAP >= 1 started at IP = 0 and leaves IP = CODE_CAP;
one with CODE_CAP = 0 completes at once, at any IP, and changes RC alone. That each RUN takes its own
CODE_CAP cycles, RC from 0, is decision D20 (assumption 17), and CODE_CAP = 0 is decision D16
(assumption 16). -/
def Obligations.RunCompletesOnlyFromIndexZero : Prop :=
  ∀ s : State, MachineInv s → s.mode = .loaded →
    (∀ t, 1 ≤ codeCap s → issue .run s = (t, .completed) → s.ip.toInt = 0 ∧ t.ip.toInt = codeCap s) ∧
    (codeCap s = 0 → issue .run s = ({ s with rc := 0 }, .completed))

/-- R83 item 3 and R125: after a completed RUN with CODE_CAP >= 1, a STEP and a RUN both raise
IllegalInstruction at once, with IP still CODE_CAP (decisions D7 and D20, assumptions 11 and 17). -/
def Obligations.NothingRunsAfterACompletedRun : Prop :=
  ∀ s t : State, MachineInv s → s.mode = .loaded → 1 ≤ codeCap s → issue .run s = (t, .completed) →
    issue .step t = ({ t with fault := some .illegalInstruction, mode := .faulted },
      .faulted .illegalInstruction) ∧
    issue .run t = ({ t with rc := 0, fault := some .illegalInstruction, mode := .faulted },
      .faulted .illegalInstruction)

/-! ## The program container and the assembler contract -/

/-- R65, whole. -/
def Obligations.ContainerRoundTrip : Prop :=
  ∀ (magic : Magic) (seq : List Record) (e : Word), fitsCount seq = true →
    decodeContainer magic (encodeContainer magic seq e) = .ok (seq, e)

/-- On a byte string that holds a header with count n and 16 + 8*n bytes (16 for a negative n),
whatever stands after those bytes, or nothing, gives the same result, an error or a program; and a
program that decodes has as many records as its count says (R61, R63). That a negative count never decodes
is decision D17 (assumption 21), and the byte order of the count is general knowledge
(93_implementation_defined.md K4, assumption 20). -/
def Obligations.ContainerReadsNoFurther : Prop :=
  ∀ (magic : Magic) (bs tail : List Byte) (n : Word),
    16 ≤ bs.length → (bs.drop 8).take 4 = bytesOfWord n → 16 + 8 * n.toInt.toNat ≤ bs.length →
    decodeContainer magic (bs.take (16 + 8 * n.toInt.toNat) ++ tail) = decodeContainer magic bs ∧
    ∀ (seq : List Record) (e : Word), decodeContainer magic bs = .ok (seq, e) → (seq.length : Int) = n.toInt

/-- The container errors in their order (R61): a header short of 16 bytes is a ReadError, then the
signature, then the version, then a negative count or a short record as a ReadError. The short header
and the negative count are decision D17 (assumption 21), and the byte order of version and count is
general knowledge (93_implementation_defined.md K4, assumption 20). -/
def Obligations.ContainerErrorsInOrder : Prop :=
  ∀ (magic : Magic) (bs : List Byte),
    (bs.length < 16 → decodeContainer magic bs = .error .readError) ∧
    (16 ≤ bs.length → bs.take 4 ≠ [magic.m0, magic.m1, magic.m2, magic.m3] →
      decodeContainer magic bs = .error .signatureMismatch) ∧
    (16 ≤ bs.length → bs.take 4 = [magic.m0, magic.m1, magic.m2, magic.m3] →
      (bs.drop 4).take 4 ≠ bytesOfWord 1 → decodeContainer magic bs = .error .versionMismatch) ∧
    (∀ n : Word, 16 ≤ bs.length → bs.take 4 = [magic.m0, magic.m1, magic.m2, magic.m3] →
      (bs.drop 4).take 4 = bytesOfWord 1 → (bs.drop 8).take 4 = bytesOfWord n →
      (n.toInt < 0 ∨ (bs.length : Int) < 16 + 8 * n.toInt) →
      decodeContainer magic bs = .error .readError)

/-- Encode writes exactly 16 + 8*n bytes, or reports WriteError where the byte sink fails (R64).
That it does so for a sequence too long for its count as well is the model's choice (assumption 29), and the
byte sink's form is too (assumption 21). -/
def Obligations.ContainerLengthIsExact : Prop :=
  ∀ (magic : Magic) (seq : List Record) (e : Word),
    (∃ bs, writeContainer magic none seq e = .ok bs ∧ bs.length = 16 + 8 * seq.length) ∧
    (∀ room, room < 16 + 8 * seq.length → writeContainer magic (some room) seq e = .error .writeError)

/-- From container to core (R66, decision D18, assumption 23): a container that decodes to n records and e
boots a machine with CODE_CAP = n, IP = e and those records, ready to step. -/
def Obligations.BootLoadsTheContainer : Prop :=
  ∀ (magic : Magic) (cap : Capacity) (tag : TagMap) (answers : List SinkAnswer) (bs : List Byte)
    (seq : List Record) (e : Word), decodeContainer magic bs = .ok (seq, e) →
    ∃ t, bootContainer magic cap tag answers bs = .ok (t, .loadOk) ∧ t.code = seq ∧ t.ip = e ∧
      t.params.stackCap = cap ∧ codeCap t = seq.length ∧ t.mode = .loaded ∧ t.fault = none

/-- The assembler contract (R67 to R72; rendering and spelling are decision D19, assumption 24): a rendered
well-formed instruction parses back to itself, and whatever parses is a well-formed instruction. -/
def Obligations.AssemblerRoundTrip : Prop :=
  (∀ i : Instr, i.wellFormed = true → parseLine (renderInstr i) = some i) ∧
  (∀ (line : List Byte) (i : Instr), parseLine line = some i → i.wellFormed = true)
end

