-- ==== Sys2Proof/Laws/Memory.lean ====
section
/-! SUPPORT. The laws of the stack/memory array: read after write, and the canonical form. -/

namespace Sys2Proof.Machine.Memory

@[simp] theorem lookup_store_same (m : Memory) (i : Nat) (v : Word) :
    lookup (store m i v) i = some v := by
  induction m with
  | nil => simp [store, lookup]
  | cons c rest ih =>
    obtain ⟨j, w⟩ := c
    unfold store
    split
    · simp [lookup]
    · split
      · simp [lookup]
      · simp [lookup, *]

theorem lookup_store_other (m : Memory) {i j : Nat} (v : Word) (h : j ≠ i) :
    lookup (store m i v) j = lookup m j := by
  induction m with
  | nil => simp [store, lookup, h]
  | cons c rest ih =>
    obtain ⟨k, w⟩ := c
    unfold store
    split
    · simp [lookup, h]
    · split
      · subst_vars; simp [lookup, h]
      · simp [lookup, ih]

/-- A word read after one write: the written word at its index, the old word elsewhere. -/
theorem word_store (m : Memory) (i j : Nat) (v : Word) :
    word (store m i v) j = if j = i then v else word m j := by
  split
  · subst_vars; simp [word]
  · simp [word, lookup_store_other, *]

/-- The same at an index that has passed the bounds check. -/
theorem word_store_toNat (m : Memory) {i : Int} (hi : 0 ≤ i) (v : Word) (j : Nat) :
    word (store m i.toNat v) j = if (j : Int) = i then v else word m j := by
  rw [word_store]
  congr 1
  simp only [eq_iff_iff]
  omega

theorem wfFrom_mono {cap lo lo' : Nat} {m : Memory} (h : wfFrom cap lo m = true) (hl : lo' ≤ lo) :
    wfFrom cap lo' m = true := by
  cases m with
  | nil => rfl
  | cons c rest =>
    simp only [wfFrom, Bool.and_eq_true, decide_eq_true_eq] at h ⊢
    exact ⟨⟨by omega, h.1.2⟩, h.2⟩

theorem wfFrom_store {cap lo : Nat} {m : Memory} {i : Nat} (v : Word)
    (h : wfFrom cap lo m = true) (hlo : lo ≤ i) (hi : i < cap) :
    wfFrom cap lo (store m i v) = true := by
  induction m generalizing lo with
  | nil => simp [store, wfFrom, hlo, hi]
  | cons c rest ih =>
    obtain ⟨j, w⟩ := c
    simp only [wfFrom, Bool.and_eq_true, decide_eq_true_eq] at h
    unfold store
    split
    · simp only [wfFrom, Bool.and_eq_true, decide_eq_true_eq]
      exact ⟨⟨hlo, hi⟩, ⟨by omega, h.1.2⟩, h.2⟩
    · split
      · subst_vars; simp [wfFrom, hlo, hi, h.2]
      · simp only [wfFrom, Bool.and_eq_true, decide_eq_true_eq]
        exact ⟨h.1, ih h.2 (by omega)⟩

/-- A write inside the array keeps the canonical form. -/
theorem wf_store {cap : Nat} {m : Memory} {i : Nat} (v : Word) (h : wf cap m = true) (hi : i < cap) :
    wf cap (store m i v) = true :=
  wfFrom_store v h (Nat.zero_le i) hi

/-- The array right after construction is canonical. -/
@[simp] theorem wf_nil (cap : Nat) : wf cap [] = true := rfl

theorem wf_reset : wf State.reset.params.stackCap.val State.reset.mem = true := rfl

end Sys2Proof.Machine.Memory
end

