-- ==== Sys2Proof/Laws/State.lean ====
section
/-! SUPPORT. What each update of State leaves in each field, so that no proof unfolds a record update. -/

namespace Sys2Proof.Machine.State

/-! ## setIp -/

@[simp] theorem setIp_params (s : State) (v : Word) : (s.setIp v).params = s.params := rfl
@[simp] theorem setIp_ip (s : State) (v : Word) : (s.setIp v).ip = v := rfl
@[simp] theorem setIp_sp (s : State) (v : Word) : (s.setIp v).sp = s.sp := rfl
@[simp] theorem setIp_mem (s : State) (v : Word) : (s.setIp v).mem = s.mem := rfl
@[simp] theorem setIp_code (s : State) (v : Word) : (s.setIp v).code = s.code := rfl
@[simp] theorem setIp_out (s : State) (v : Word) : (s.setIp v).out = s.out := rfl
@[simp] theorem setIp_fault (s : State) (v : Word) : (s.setIp v).fault = s.fault := rfl
@[simp] theorem setIp_mode (s : State) (v : Word) : (s.setIp v).mode = s.mode := rfl
@[simp] theorem setIp_rc (s : State) (v : Word) : (s.setIp v).rc = s.rc := rfl
@[simp] theorem setIp_sinkAnswers (s : State) (v : Word) : (s.setIp v).sinkAnswers = s.sinkAnswers := rfl
@[simp] theorem setIp_transfers (s : State) (v : Word) : (s.setIp v).transfers = s.transfers := rfl

/-! ## setSp -/

@[simp] theorem setSp_params (s : State) (v : Word) : (s.setSp v).params = s.params := rfl
@[simp] theorem setSp_ip (s : State) (v : Word) : (s.setSp v).ip = s.ip := rfl
@[simp] theorem setSp_sp (s : State) (v : Word) : (s.setSp v).sp = v := rfl
@[simp] theorem setSp_mem (s : State) (v : Word) : (s.setSp v).mem = s.mem := rfl
@[simp] theorem setSp_code (s : State) (v : Word) : (s.setSp v).code = s.code := rfl
@[simp] theorem setSp_out (s : State) (v : Word) : (s.setSp v).out = s.out := rfl
@[simp] theorem setSp_fault (s : State) (v : Word) : (s.setSp v).fault = s.fault := rfl
@[simp] theorem setSp_mode (s : State) (v : Word) : (s.setSp v).mode = s.mode := rfl
@[simp] theorem setSp_rc (s : State) (v : Word) : (s.setSp v).rc = s.rc := rfl
@[simp] theorem setSp_sinkAnswers (s : State) (v : Word) : (s.setSp v).sinkAnswers = s.sinkAnswers := rfl
@[simp] theorem setSp_transfers (s : State) (v : Word) : (s.setSp v).transfers = s.transfers := rfl

/-! ## setMem -/

@[simp] theorem setMem_params (s : State) (m : Memory) : (s.setMem m).params = s.params := rfl
@[simp] theorem setMem_ip (s : State) (m : Memory) : (s.setMem m).ip = s.ip := rfl
@[simp] theorem setMem_sp (s : State) (m : Memory) : (s.setMem m).sp = s.sp := rfl
@[simp] theorem setMem_mem (s : State) (m : Memory) : (s.setMem m).mem = m := rfl
@[simp] theorem setMem_code (s : State) (m : Memory) : (s.setMem m).code = s.code := rfl
@[simp] theorem setMem_out (s : State) (m : Memory) : (s.setMem m).out = s.out := rfl
@[simp] theorem setMem_fault (s : State) (m : Memory) : (s.setMem m).fault = s.fault := rfl
@[simp] theorem setMem_mode (s : State) (m : Memory) : (s.setMem m).mode = s.mode := rfl
@[simp] theorem setMem_rc (s : State) (m : Memory) : (s.setMem m).rc = s.rc := rfl
@[simp] theorem setMem_sinkAnswers (s : State) (m : Memory) : (s.setMem m).sinkAnswers = s.sinkAnswers := rfl
@[simp] theorem setMem_transfers (s : State) (m : Memory) : (s.setMem m).transfers = s.transfers := rfl

/-! ## setRc -/

@[simp] theorem setRc_params (s : State) (n : Nat) : (s.setRc n).params = s.params := rfl
@[simp] theorem setRc_ip (s : State) (n : Nat) : (s.setRc n).ip = s.ip := rfl
@[simp] theorem setRc_sp (s : State) (n : Nat) : (s.setRc n).sp = s.sp := rfl
@[simp] theorem setRc_mem (s : State) (n : Nat) : (s.setRc n).mem = s.mem := rfl
@[simp] theorem setRc_code (s : State) (n : Nat) : (s.setRc n).code = s.code := rfl
@[simp] theorem setRc_out (s : State) (n : Nat) : (s.setRc n).out = s.out := rfl
@[simp] theorem setRc_fault (s : State) (n : Nat) : (s.setRc n).fault = s.fault := rfl
@[simp] theorem setRc_mode (s : State) (n : Nat) : (s.setRc n).mode = s.mode := rfl
@[simp] theorem setRc_rc (s : State) (n : Nat) : (s.setRc n).rc = n := rfl
@[simp] theorem setRc_sinkAnswers (s : State) (n : Nat) : (s.setRc n).sinkAnswers = s.sinkAnswers := rfl
@[simp] theorem setRc_transfers (s : State) (n : Nat) : (s.setRc n).transfers = s.transfers := rfl

/-! ## setCode -/

@[simp] theorem setCode_params (s : State) (seq : List Record) : (s.setCode seq).params = s.params := rfl
@[simp] theorem setCode_ip (s : State) (seq : List Record) : (s.setCode seq).ip = s.ip := rfl
@[simp] theorem setCode_sp (s : State) (seq : List Record) : (s.setCode seq).sp = s.sp := rfl
@[simp] theorem setCode_mem (s : State) (seq : List Record) : (s.setCode seq).mem = s.mem := rfl
@[simp] theorem setCode_code (s : State) (seq : List Record) : (s.setCode seq).code = seq := rfl
@[simp] theorem setCode_out (s : State) (seq : List Record) : (s.setCode seq).out = s.out := rfl
@[simp] theorem setCode_fault (s : State) (seq : List Record) : (s.setCode seq).fault = s.fault := rfl
@[simp] theorem setCode_mode (s : State) (seq : List Record) : (s.setCode seq).mode = .loaded := rfl
@[simp] theorem setCode_rc (s : State) (seq : List Record) : (s.setCode seq).rc = s.rc := rfl
@[simp] theorem setCode_sinkAnswers (s : State) (seq : List Record) : (s.setCode seq).sinkAnswers = s.sinkAnswers := rfl
@[simp] theorem setCode_transfers (s : State) (seq : List Record) : (s.setCode seq).transfers = s.transfers := rfl

/-! ## setFault -/

@[simp] theorem setFault_params (s : State) (k : FaultKind) : (s.setFault k).params = s.params := rfl
@[simp] theorem setFault_ip (s : State) (k : FaultKind) : (s.setFault k).ip = s.ip := rfl
@[simp] theorem setFault_sp (s : State) (k : FaultKind) : (s.setFault k).sp = s.sp := rfl
@[simp] theorem setFault_mem (s : State) (k : FaultKind) : (s.setFault k).mem = s.mem := rfl
@[simp] theorem setFault_code (s : State) (k : FaultKind) : (s.setFault k).code = s.code := rfl
@[simp] theorem setFault_out (s : State) (k : FaultKind) : (s.setFault k).out = s.out := rfl
@[simp] theorem setFault_fault (s : State) (k : FaultKind) : (s.setFault k).fault = some k := rfl
@[simp] theorem setFault_mode (s : State) (k : FaultKind) : (s.setFault k).mode = .faulted := rfl
@[simp] theorem setFault_rc (s : State) (k : FaultKind) : (s.setFault k).rc = s.rc := rfl
@[simp] theorem setFault_sinkAnswers (s : State) (k : FaultKind) : (s.setFault k).sinkAnswers = s.sinkAnswers := rfl
@[simp] theorem setFault_transfers (s : State) (k : FaultKind) : (s.setFault k).transfers = s.transfers := rfl

/-! ## setOut -/

@[simp] theorem setOut_params (s : State) (bs : List Byte) : (s.setOut bs).params = s.params := rfl
@[simp] theorem setOut_ip (s : State) (bs : List Byte) : (s.setOut bs).ip = s.ip := rfl
@[simp] theorem setOut_sp (s : State) (bs : List Byte) : (s.setOut bs).sp = s.sp := rfl
@[simp] theorem setOut_mem (s : State) (bs : List Byte) : (s.setOut bs).mem = s.mem := rfl
@[simp] theorem setOut_code (s : State) (bs : List Byte) : (s.setOut bs).code = s.code := rfl
@[simp] theorem setOut_out (s : State) (bs : List Byte) : (s.setOut bs).out = bs := rfl
@[simp] theorem setOut_fault (s : State) (bs : List Byte) : (s.setOut bs).fault = s.fault := rfl
@[simp] theorem setOut_mode (s : State) (bs : List Byte) : (s.setOut bs).mode = s.mode := rfl
@[simp] theorem setOut_rc (s : State) (bs : List Byte) : (s.setOut bs).rc = s.rc := rfl
@[simp] theorem setOut_sinkAnswers (s : State) (bs : List Byte) : (s.setOut bs).sinkAnswers = s.sinkAnswers := rfl
@[simp] theorem setOut_transfers (s : State) (bs : List Byte) : (s.setOut bs).transfers = s.transfers := rfl

/-! ## setAnswered -/

@[simp] theorem setAnswered_params (s : State) : (s.setAnswered).params = s.params := rfl
@[simp] theorem setAnswered_ip (s : State) : (s.setAnswered).ip = s.ip := rfl
@[simp] theorem setAnswered_sp (s : State) : (s.setAnswered).sp = s.sp := rfl
@[simp] theorem setAnswered_mem (s : State) : (s.setAnswered).mem = s.mem := rfl
@[simp] theorem setAnswered_code (s : State) : (s.setAnswered).code = s.code := rfl
@[simp] theorem setAnswered_out (s : State) : (s.setAnswered).out = s.out := rfl
@[simp] theorem setAnswered_fault (s : State) : (s.setAnswered).fault = s.fault := rfl
@[simp] theorem setAnswered_mode (s : State) : (s.setAnswered).mode = s.mode := rfl
@[simp] theorem setAnswered_rc (s : State) : (s.setAnswered).rc = s.rc := rfl
@[simp] theorem setAnswered_sinkAnswers (s : State) : (s.setAnswered).sinkAnswers = s.sinkAnswers.tail := rfl
@[simp] theorem setAnswered_transfers (s : State) : (s.setAnswered).transfers = s.transfers + 1 := rfl

end Sys2Proof.Machine.State

namespace Sys2Proof.Machine

@[simp] theorem stackCap_setIp (s : State) (v : Word) : stackCap (s.setIp v) = stackCap s := rfl
@[simp] theorem codeCap_setIp (s : State) (v : Word) : codeCap (s.setIp v) = codeCap s := rfl
@[simp] theorem wordAt_setIp (s : State) (v : Word) (j : Nat) : wordAt (s.setIp v) j = wordAt s j := rfl
@[simp] theorem stackCap_setSp (s : State) (v : Word) : stackCap (s.setSp v) = stackCap s := rfl
@[simp] theorem codeCap_setSp (s : State) (v : Word) : codeCap (s.setSp v) = codeCap s := rfl
@[simp] theorem wordAt_setSp (s : State) (v : Word) (j : Nat) : wordAt (s.setSp v) j = wordAt s j := rfl
@[simp] theorem stackCap_setMem (s : State) (m : Memory) : stackCap (s.setMem m) = stackCap s := rfl
@[simp] theorem codeCap_setMem (s : State) (m : Memory) : codeCap (s.setMem m) = codeCap s := rfl
@[simp] theorem wordAt_setMem (s : State) (m : Memory) (j : Nat) : wordAt (s.setMem m) j = Memory.word m j := rfl
@[simp] theorem stackCap_setRc (s : State) (n : Nat) : stackCap (s.setRc n) = stackCap s := rfl
@[simp] theorem codeCap_setRc (s : State) (n : Nat) : codeCap (s.setRc n) = codeCap s := rfl
@[simp] theorem wordAt_setRc (s : State) (n : Nat) (j : Nat) : wordAt (s.setRc n) j = wordAt s j := rfl
@[simp] theorem stackCap_setCode (s : State) (seq : List Record) : stackCap (s.setCode seq) = stackCap s := rfl
@[simp] theorem codeCap_setCode (s : State) (seq : List Record) : codeCap (s.setCode seq) = codeCap s := rfl
@[simp] theorem wordAt_setCode (s : State) (seq : List Record) (j : Nat) : wordAt (s.setCode seq) j = wordAt s j := rfl
@[simp] theorem stackCap_setFault (s : State) (k : FaultKind) : stackCap (s.setFault k) = stackCap s := rfl
@[simp] theorem codeCap_setFault (s : State) (k : FaultKind) : codeCap (s.setFault k) = codeCap s := rfl
@[simp] theorem wordAt_setFault (s : State) (k : FaultKind) (j : Nat) : wordAt (s.setFault k) j = wordAt s j := rfl
@[simp] theorem stackCap_setOut (s : State) (bs : List Byte) : stackCap (s.setOut bs) = stackCap s := rfl
@[simp] theorem codeCap_setOut (s : State) (bs : List Byte) : codeCap (s.setOut bs) = codeCap s := rfl
@[simp] theorem wordAt_setOut (s : State) (bs : List Byte) (j : Nat) : wordAt (s.setOut bs) j = wordAt s j := rfl
@[simp] theorem stackCap_setAnswered (s : State) : stackCap (s.setAnswered) = stackCap s := rfl
@[simp] theorem codeCap_setAnswered (s : State) : codeCap (s.setAnswered) = codeCap s := rfl
@[simp] theorem wordAt_setAnswered (s : State) (j : Nat) : wordAt (s.setAnswered) j = wordAt s j := rfl

end Sys2Proof.Machine
end

