-- ==== Sys2Proof/Laws/Ops.lean ====
section
/-! SUPPORT. One lemma per shared operation: everything it can do. -/

namespace Sys2Proof.Machine

@[simp] theorem andThen_ok {α β : Type} (a : α) (s : State) (f : α → State → Res β) :
    andThen (.ok a s) f = f a s := rfl

@[simp] theorem andThen_raised {α β : Type} (k : FaultKind) (s : State) (f : α → State → Res β) :
    andThen (.raised k s : Res α) f = .raised k s := rfl

@[simp] theorem conclude_ok (s : State) : conclude (.ok () s) = .next s := rfl

@[simp] theorem conclude_raised (k : FaultKind) (s : State) :
    conclude (.raised k s) = .next (s.setFault k) := rfl

/-- A signed value in range survives the register. -/
theorem toInt_ofInt32 {v : Int} (h : intMin ≤ v ∧ v ≤ intMax) : (BitVec.ofInt 32 v).toInt = v := by
  simp only [intMin, intMax] at h
  rw [BitVec.toInt_ofInt, Int.bmod_eq_of_le] <;> omega

theorem toInt_range (w : Word) : intMin ≤ w.toInt ∧ w.toInt ≤ intMax := by
  have h1 := BitVec.le_toInt w
  have h2 := BitVec.toInt_lt (x := w)
  simp only [intMin, intMax] at *
  omega

theorem stackCap_range (s : State) : 0 ≤ stackCap s ∧ stackCap s ≤ intMax := by
  have := s.params.stackCap.isLt
  simp only [stackCap, intMax]
  omega

theorem codeCap_range (s : State) : 0 ≤ codeCap s ∧ codeCap s ≤ intMax := by
  have := s.params.codeCap.isLt
  simp only [codeCap, intMax]
  omega

/-- The step down and the step up of a register holding p, inside the signed range. -/
theorem toInt_pred {w : Word} (h : 0 < w.toInt) : (BitVec.ofInt 32 (w.toInt - 1)).toInt = w.toInt - 1 := by
  have := toInt_range w
  apply toInt_ofInt32
  simp only [intMin, intMax] at *
  omega

theorem toInt_succ {w : Word} (h : w.toInt < intMax) : (BitVec.ofInt 32 (w.toInt + 1)).toInt = w.toInt + 1 := by
  have := toInt_range w
  apply toInt_ofInt32
  simp only [intMin, intMax] at *
  omega

/-- R38. -/
theorem memRead_cases (i : Int) (s : State) :
    (OutOfBounds s i ∧ memRead i s = .raised .memoryError s) ∨
    (0 ≤ i ∧ i < stackCap s ∧ memRead i s = .ok (wordAt s i.toNat) s) := by
  unfold memRead
  split
  · exact .inl ⟨‹_›, rfl⟩
  · rename_i h
    simp only [OutOfBounds, not_or, not_lt, not_le] at h
    exact .inr ⟨h.1, h.2, rfl⟩

/-- R39. -/
theorem memWrite_cases (i : Int) (v : Word) (s : State) :
    (OutOfBounds s i ∧ memWrite i v s = .raised .memoryError s) ∨
    (0 ≤ i ∧ i < stackCap s ∧ memWrite i v s = .ok () (s.setMem (Memory.store s.mem i.toNat v))) := by
  unfold memWrite
  split
  · exact .inl ⟨‹_›, rfl⟩
  · rename_i h
    simp only [OutOfBounds, not_or, not_lt, not_le] at h
    exact .inr ⟨h.1, h.2, rfl⟩

/-- R40. -/
theorem incSP_cases (s : State) :
    (stackCap s - 1 ≤ s.sp.toInt ∧ incSP s = .raised .stackOverflow s) ∨
    (s.sp.toInt < stackCap s - 1 ∧ ∃ p : Word, p.toInt = s.sp.toInt + 1 ∧ incSP s = .ok () (s.setSp p)) := by
  unfold incSP
  have := stackCap_range s
  split
  · exact .inl ⟨‹_›, rfl⟩
  · exact .inr ⟨by omega, _, toInt_succ (by omega), rfl⟩

/-- R41. -/
theorem decSP_cases (s : State) :
    (s.sp.toInt ≤ 0 ∧ decSP s = .raised .stackOverflow s) ∨
    (0 < s.sp.toInt ∧ ∃ p : Word, p.toInt = s.sp.toInt - 1 ∧ decSP s = .ok () (s.setSp p)) := by
  unfold decSP
  split
  · exact .inl ⟨‹_›, rfl⟩
  · exact .inr ⟨by omega, _, toInt_pred (by omega), rfl⟩

/-- R42: a push finds no slot, or writes the slot at SP and then may find the ceiling. -/
theorem push_cases (v : Word) (s : State) :
    (OutOfBounds s (pushIndex s) ∧ push v s = .raised .memoryError s) ∨
    (0 ≤ pushIndex s ∧ pushIndex s < stackCap s ∧ stackCap s - 1 ≤ s.sp.toInt ∧
      push v s = .raised .stackOverflow (s.setMem (Memory.store s.mem (pushIndex s).toNat v))) ∨
    (0 ≤ pushIndex s ∧ s.sp.toInt < stackCap s - 1 ∧ ∃ p : Word, p.toInt = s.sp.toInt + 1 ∧
      push v s = .ok () ((s.setMem (Memory.store s.mem (pushIndex s).toNat v)).setSp p)) := by
  unfold push
  rcases memWrite_cases (pushIndex s) v s with ⟨h, e⟩ | ⟨h0, h1, e⟩
  · exact .inl ⟨h, by rw [e]; rfl⟩
  · rw [e, andThen_ok]
    rcases incSP_cases (s.setMem (Memory.store s.mem (pushIndex s).toNat v)) with ⟨h, e'⟩ | ⟨h, p, hp, e'⟩
    · exact .inr (.inl ⟨h0, h1, h, e'⟩)
    · exact .inr (.inr ⟨h0, h, p, hp, e'⟩)

/-- R43: a pop finds no top, or hands on the top and lowers SP by one. -/
theorem pop_cases (s : State) :
    (OutOfBounds s (topIndex s) ∧ pop s = .raised .memoryError s) ∨
    (1 ≤ s.sp.toInt ∧ s.sp.toInt ≤ stackCap s ∧ ∃ p : Word, p.toInt = s.sp.toInt - 1 ∧
      pop s = .ok (wordAt s (topIndex s).toNat) (s.setSp p)) := by
  unfold pop
  rcases memRead_cases (topIndex s) s with ⟨h, e⟩ | ⟨h0, h1, e⟩
  · exact .inl ⟨h, by rw [e]; rfl⟩
  · rw [e, andThen_ok]
    simp only [topIndex] at h0 h1
    rcases decSP_cases s with ⟨h, _⟩ | ⟨h, p, hp, e'⟩
    · omega
    · exact .inr ⟨by omega, by omega, p, hp, by rw [e']; rfl⟩

/-- R99. -/
theorem emit_cases (bs : List Byte) (s : State) :
    (sinkAnswer s = .accept ∧ emit bs s = .ok () (s.setAnswered.setOut (s.out ++ bs))) ∨
    (∃ e, sinkAnswer s = .fail e ∧ emit bs s = .raised (.outputError e) s.setAnswered) := by
  unfold emit
  split
  · exact .inl ⟨‹_›, rfl⟩
  · exact .inr ⟨_, ‹_›, rfl⟩

/-- R89, R90. -/
theorem narrow_cases (v : Int) :
    (¬ In32 v ∧ narrow v = .error .arithmeticOverflow) ∨
    (In32 v ∧ ∃ w : Word, w.toInt = v ∧ narrow v = .ok w) := by
  unfold narrow
  split
  · exact .inr ⟨‹_›, _, toInt_ofInt32 ‹_›, rfl⟩
  · exact .inl ⟨‹_›, rfl⟩

end Sys2Proof.Machine
end

