-- ==== Sys2Proof/Laws/Arithmetic.lean ====
section
/-! SUPPORT. What the shared sequence of the four arithmetic instructions can do (R91). -/

namespace Sys2Proof.Machine

/-- R91: one of the two operands is missing, or f raises on them and nothing has changed, or the result
is in the slot of the earlier operand and SP is one lower. -/
theorem binOp_cases (f : Word → Word → Except FaultKind Word) (s : State) :
    ((OutOfBounds s (topIndex s) ∨ OutOfBounds s (secondIndex s)) ∧ binOp f s = .raised .memoryError s) ∨
    (2 ≤ s.sp.toInt ∧ s.sp.toInt ≤ stackCap s ∧
      ((∃ k, f (wordAt s (topIndex s).toNat) (wordAt s (secondIndex s).toNat) = .error k ∧
          binOp f s = .raised k s) ∨
       (∃ r p, f (wordAt s (topIndex s).toNat) (wordAt s (secondIndex s).toNat) = .ok r ∧
          p.toInt = s.sp.toInt - 1 ∧
          binOp f s = .ok () ((s.setMem (Memory.store s.mem (secondIndex s).toNat r)).setSp p)))) := by
  unfold binOp
  rcases memRead_cases (topIndex s) s with ⟨h, e⟩ | ⟨h0, h1, e⟩
  · exact .inl ⟨.inl h, by rw [e]; rfl⟩
  rw [e, andThen_ok]
  rcases memRead_cases (secondIndex s) s with ⟨h, e'⟩ | ⟨h2, h3, e'⟩
  · exact .inl ⟨.inr h, by rw [e']; rfl⟩
  rw [e', andThen_ok]
  simp only [topIndex, secondIndex] at h0 h1 h2 h3
  refine .inr ⟨by omega, by omega, ?_⟩
  cases hf : f (wordAt s (topIndex s).toNat) (wordAt s (secondIndex s).toNat) with
  | error k => exact .inl ⟨k, rfl, rfl⟩
  | ok r =>
    refine .inr ?_
    rcases memWrite_cases (secondIndex s) r s with ⟨h, _⟩ | ⟨_, _, ew⟩
    · simp only [OutOfBounds, secondIndex] at h; omega
    rcases decSP_cases (s.setMem (Memory.store s.mem (secondIndex s).toNat r)) with ⟨h, _⟩ | ⟨_, p, hp, ed⟩
    · simp only [State.setMem_sp] at h; omega
    · exact ⟨r, p, rfl, hp, by simp only [ofAlu, andThen_ok, ew]; exact ed⟩

end Sys2Proof.Machine
end

