-- ==== Sys2Proof/Laws/Container.lean ====
section
/-! SUPPORT. The count field of Encode. -/

namespace Sys2Proof.Machine

/-- The count field of a sequence that fits is its length (R64, R65). -/
theorem countWord_of_fits {seq : List Record} (h : fitsCount seq = true) :
    countWord seq = BitVec.ofNat 32 seq.length := by
  simp [countWord, h]

end Sys2Proof.Machine
end

