-- ==== Sys2Proof/Laws/Decode.lean ====
section
/-! SUPPORT. The byte order and the opcode map: what the decoder and the encoder are built from. -/

namespace Sys2Proof

/-- The four bytes of a word give it back (R51). -/
theorem wordOfBytes_of_word (w : Word) :
    wordOfBytes (byteOf w.toNat 0) (byteOf w.toNat 1) (byteOf w.toNat 2) (byteOf w.toNat 3) = w := by
  apply BitVec.eq_of_toNat_eq
  have := w.isLt
  simp only [wordOfBytes, byteOf, BitVec.toNat_ofNat]
  omega

/-- A word put together from four bytes has those bytes (R51). -/
theorem bytesOfWord_wordOfBytes (b0 b1 b2 b3 : Byte) :
    bytesOfWord (wordOfBytes b0 b1 b2 b3) = [b0, b1, b2, b3] := by
  have h0 := b0.isLt
  have h1 := b1.isLt
  have h2 := b2.isLt
  have h3 := b3.isLt
  simp only [bytesOfWord, List.cons.injEq, and_true]
  refine ⟨?_, ?_, ?_, ?_⟩ <;> apply BitVec.eq_of_toNat_eq <;>
    simp only [wordOfBytes, byteOf, BitVec.toNat_ofNat] <;> omega

/-- The eight bytes of a record give it back, with whatever follows them. -/
theorem recordOfBytes_of_record (r : Record) (rest : List Byte) :
    recordOfBytes (bytesOfRecord r ++ rest) = some (r, rest) := by
  simp only [bytesOfRecord, bytesOfWord, List.cons_append, List.nil_append, recordOfBytes,
    wordOfBytes_of_word]

@[simp] theorem length_bytesOfRecord (r : Record) : (bytesOfRecord r).length = 8 := rfl

@[simp] theorem withOperand_mnemonic (m : Mnemonic) (x : Word) : (m.withOperand x).mnemonic = m := by
  cases m <;> rfl

@[simp] theorem withOperand_operand (m : Mnemonic) (x : Word) : (m.withOperand x).operand = x := by
  cases m <;> rfl

theorem withOperand_of_instr (i : Instr) : i.mnemonic.withOperand i.operand = i := by
  cases i <;> rfl

/-- The mnemonic the decoder finds has the op value as its tag. -/
theorem of_decodeOp {t : TagMap} {op : Word} {m : Mnemonic} (h : decodeOp t op = some m) : t.of m = op := by
  have := List.find?_some h
  simpa using this

/-- With an injective TAG the decoder finds the mnemonic of a tag (R76). -/
theorem decodeOp_of {t : TagMap} (ht : t.injective = true) (m : Mnemonic) : decodeOp t (t.of m) = some m := by
  have hd := of_decide_eq_true ht
  simp only [TagMap.values, List.nodup_cons, List.mem_cons, not_or] at hd
  cases m <;> simp [decodeOp, Mnemonic.all, TagMap.of, beq_eq_false_iff_ne.mpr, hd]

end Sys2Proof
end

