-- ==== Sys2Proof/Laws/Exec.lean ====
section
/-! SUPPORT. Everything each instruction, a fetch and a step can do: one inversion lemma each, which later
proofs cite instead of unfolding a meaning. -/

namespace Sys2Proof.Machine

/-- R86. -/
theorem execLit_cases (x : Word) (s : State) :
    (OutOfBounds s (pushIndex s) ∧ execLit x s = .next (s.setFault .memoryError)) ∨
    (0 ≤ pushIndex s ∧ pushIndex s < stackCap s ∧ stackCap s - 1 ≤ s.sp.toInt ∧
      execLit x s = .next ((s.setMem (Memory.store s.mem (pushIndex s).toNat x)).setFault .stackOverflow)) ∨
    (0 ≤ pushIndex s ∧ s.sp.toInt < stackCap s - 1 ∧ ∃ p : Word, p.toInt = s.sp.toInt + 1 ∧
      execLit x s = .next ((s.setMem (Memory.store s.mem (pushIndex s).toNat x)).setSp p)) := by
  unfold execLit
  rcases push_cases x s with ⟨h, e⟩ | ⟨h, h', h'', e⟩ | ⟨h, h', p, hp, e⟩ <;> rw [e]
  · exact .inl ⟨h, rfl⟩
  · exact .inr (.inl ⟨h, h', h'', rfl⟩)
  · exact .inr (.inr ⟨h, h', p, hp, rfl⟩)

/-- R87: the read first, then as a push of what was read. -/
theorem execLod_cases (x : Word) (s : State) :
    (OutOfBounds s (dataIndex x) ∧ execLod x s = .next (s.setFault .memoryError)) ∨
    (0 ≤ dataIndex x ∧ dataIndex x < stackCap s ∧
      execLod x s = execLit (wordAt s (dataIndex x).toNat) s) := by
  unfold execLod execLit
  rcases memRead_cases (dataIndex x) s with ⟨h, e⟩ | ⟨h, h', e⟩ <;> rw [e]
  · exact .inl ⟨h, rfl⟩
  · exact .inr ⟨h, h', rfl⟩

/-- R88. -/
theorem execSto_cases (x : Word) (s : State) :
    ((OutOfBounds s (topIndex s) ∨ OutOfBounds s (dataIndex x)) ∧
      execSto x s = .next (s.setFault .memoryError)) ∨
    (1 ≤ s.sp.toInt ∧ s.sp.toInt ≤ stackCap s ∧ 0 ≤ dataIndex x ∧ dataIndex x < stackCap s ∧
      ∃ p : Word, p.toInt = s.sp.toInt - 1 ∧ execSto x s = .next
        ((s.setMem (Memory.store s.mem (dataIndex x).toNat (wordAt s (topIndex s).toNat))).setSp p)) := by
  unfold execSto
  rcases memRead_cases (topIndex s) s with ⟨h, e⟩ | ⟨h, h', e⟩ <;> rw [e]
  · exact .inl ⟨.inl h, rfl⟩
  rw [andThen_ok]
  simp only [topIndex] at h h'
  rcases memWrite_cases (dataIndex x) (wordAt s (topIndex s).toNat) s with ⟨hx, e⟩ | ⟨hx, hx', e⟩ <;> rw [e]
  · exact .inl ⟨.inr hx, rfl⟩
  rw [andThen_ok]
  rcases decSP_cases (s.setMem (Memory.store s.mem (dataIndex x).toNat (wordAt s (topIndex s).toNat)))
    with ⟨hd, _⟩ | ⟨_, p, hp, e⟩
  · simp only [State.setMem_sp] at hd; omega
  · exact .inr ⟨by omega, by omega, hx, hx', p, hp, by rw [e]; rfl⟩

/-- R91: the end of an arithmetic instruction. -/
theorem conclude_binOp_cases (f : Word → Word → Except FaultKind Word) (s : State) :
    ((OutOfBounds s (topIndex s) ∨ OutOfBounds s (secondIndex s)) ∧
      conclude (binOp f s) = .next (s.setFault .memoryError)) ∨
    (2 ≤ s.sp.toInt ∧ s.sp.toInt ≤ stackCap s ∧
      ((∃ k, f (wordAt s (topIndex s).toNat) (wordAt s (secondIndex s).toNat) = .error k ∧
          conclude (binOp f s) = .next (s.setFault k)) ∨
       (∃ r p, f (wordAt s (topIndex s).toNat) (wordAt s (secondIndex s).toNat) = .ok r ∧
          p.toInt = s.sp.toInt - 1 ∧
          conclude (binOp f s) =
            .next ((s.setMem (Memory.store s.mem (secondIndex s).toNat r)).setSp p)))) := by
  rcases binOp_cases f s with ⟨h, e⟩ | ⟨h, h', ⟨k, hk, e⟩ | ⟨r, p, hr, hp, e⟩⟩ <;> rw [e]
  · exact .inl ⟨h, rfl⟩
  · exact .inr ⟨h, h', .inl ⟨k, hk, rfl⟩⟩
  · exact .inr ⟨h, h', .inr ⟨r, p, hr, hp, rfl⟩⟩

/-- R98. -/
theorem execWrt_cases (s : State) :
    (OutOfBounds s (topIndex s) ∧ execWrt s = .next (s.setFault .memoryError)) ∨
    (1 ≤ s.sp.toInt ∧ s.sp.toInt ≤ stackCap s ∧ ∃ p : Word, p.toInt = s.sp.toInt - 1 ∧
      ((sinkAnswer s = .accept ∧ execWrt s = .next
          ((s.setSp p).setAnswered.setOut (s.out ++ (dec (wordAt s (topIndex s).toNat) ++ [newline])))) ∨
       (∃ e, sinkAnswer s = .fail e ∧ execWrt s = .next
          ((s.setSp p).setAnswered.setFault (.outputError e))))) := by
  unfold execWrt
  rcases pop_cases s with ⟨h, e⟩ | ⟨h, h', p, hp, e⟩ <;> rw [e]
  · exact .inl ⟨h, rfl⟩
  rw [andThen_ok]
  refine .inr ⟨h, h', p, hp, ?_⟩
  rcases emit_cases (dec (wordAt s (topIndex s).toNat) ++ [newline]) (s.setSp p) with ⟨ha, e⟩ | ⟨k, ha, e⟩ <;>
    rw [e]
  · exact .inl ⟨ha, rfl⟩
  · exact .inr ⟨k, ha, rfl⟩

/-- The execute stage agrees with the arm of `exec` for each of the eight executable mnemonics (R77). -/
theorem execute_eq_exec (i : Executable) (s : State) : execute i s = exec i.val s := by
  obtain ⟨i, h⟩ := i
  cases i with
  | ill x => cases h
  | lit x => rfl
  | lod x => rfl
  | sto x => rfl
  | add x => rfl
  | sub x => rfl
  | mul x => rfl
  | div x => rfl
  | wrt x => rfl

/-- R74 to R76: a raise that has changed nothing, or an executable instruction with IP one higher. -/
theorem fetch_cases (s : State) :
    fetch s = .raised .illegalInstruction s ∨
    (0 ≤ s.ip.toInt ∧ s.ip.toInt < codeCap s ∧ ∃ i : Executable, ∃ p : Word,
      decodeRecord s.params.tag (codeAt s s.ip.toInt.toNat) = .ok i.val ∧
      p.toInt = s.ip.toInt + 1 ∧ fetch s = .ok i (s.setIp p)) := by
  unfold fetch
  have := codeCap_range s
  split
  · exact .inl rfl
  · rename_i h
    split
    · exact .inl rfl
    · rename_i i hd
      split
      · exact .inr ⟨by omega, by omega, ⟨i, ‹_›⟩, _, hd, toInt_succ (by omega), rfl⟩
      · exact .inl rfl

/-- R80, R104: a step in MODE = Loaded raises IllegalInstruction at fetch, or runs the fetched
instruction on the state with IP one higher. -/
theorem step_loaded_cases {s : State} (h : s.mode = .loaded) :
    step s = .next (s.setFault .illegalInstruction) ∨
    (0 ≤ s.ip.toInt ∧ s.ip.toInt < codeCap s ∧ ∃ i, ∃ p : Word,
      decodeRecord s.params.tag (codeAt s s.ip.toInt.toNat) = .ok i ∧ i.executable = true ∧
      p.toInt = s.ip.toInt + 1 ∧ step s = exec i (s.setIp p)) := by
  unfold step cycle
  rcases fetch_cases s with e | ⟨h0, h1, i, p, hd, hp, e⟩
  · exact .inl (by simp only [h, e]; rfl)
  · exact .inr ⟨h0, h1, i.val, p, hd, i.property, hp, by simp only [h, e]; exact execute_eq_exec i _⟩

/-- A step that answers a next state starts in MODE = Loaded (R119). -/
theorem loaded_of_step {s t : State} (h : step s = .next t) : s.mode = .loaded := by
  unfold step at h
  split at h
  · assumption
  · cases h
  · cases h

end Sys2Proof.Machine
end

