-- ==== Sys2Proof/Laws/Effect.lean ====
section
/-! SUPPORT. The one inversion lemma of `exec`: the six things an executed instruction can do to the state. -/

namespace Sys2Proof.Machine

/-- How an instruction's next state comes from the state it ran on. -/
inductive ExecEffect (i : Instr) (s t : State) : Prop where
  /-- A raise before anything was changed. -/
  | raise (k : FaultKind)
      (kind : (k = .illegalInstruction ∧ i.mnemonic = .ILL) ∨ k = .memoryError ∨
        (k = .arithmeticOverflow ∧ i.mnemonic ∈ [.ADD, .SUB, .MUL, .DIV]) ∨
        (k = .divideByZero ∧ i.mnemonic = .DIV))
      (eq : t = s.setFault k)
  /-- A push that wrote the sentinel slot and found the ceiling (R42). -/
  | ceiling (v : Word) (who : i.mnemonic = .LIT ∨ i.mnemonic = .LOD)
      (inside : 0 ≤ pushIndex s ∧ pushIndex s < stackCap s) (full : stackCap s - 1 ≤ s.sp.toInt)
      (eq : t = (s.setMem (Memory.store s.mem (pushIndex s).toNat v)).setFault .stackOverflow)
  /-- A completed push. -/
  | pushed (v p : Word) (who : i.mnemonic = .LIT ∨ i.mnemonic = .LOD)
      (inside : 0 ≤ pushIndex s) (room : s.sp.toInt < stackCap s - 1) (up : p.toInt = s.sp.toInt + 1)
      (eq : t = (s.setMem (Memory.store s.mem (pushIndex s).toNat v)).setSp p)
  /-- A completed STO, or a completed arithmetic instruction. -/
  | stored (j : Int) (v p : Word)
      (who : (∃ x, i = .sto x ∧ j = dataIndex x ∧ 1 ≤ s.sp.toInt) ∨
        (i.mnemonic ∈ [.ADD, .SUB, .MUL, .DIV] ∧ j = secondIndex s ∧ 2 ≤ s.sp.toInt))
      (inside : 0 ≤ j ∧ j < stackCap s) (depth : s.sp.toInt ≤ stackCap s)
      (down : p.toInt = s.sp.toInt - 1)
      (eq : t = (s.setMem (Memory.store s.mem j.toNat v)).setSp p)
  /-- A WRT whose transfer the sink accepted. -/
  | emitted (p : Word) (who : i.mnemonic = .WRT) (depth : 1 ≤ s.sp.toInt ∧ s.sp.toInt ≤ stackCap s)
      (down : p.toInt = s.sp.toInt - 1) (answer : sinkAnswer s = .accept)
      (eq : t = (s.setSp p).setAnswered.setOut
        (s.out ++ (dec (wordAt s (topIndex s).toNat) ++ [newline])))
  /-- A WRT whose transfer failed. -/
  | sinkFailed (p : Word) (e : SinkError) (who : i.mnemonic = .WRT)
      (depth : 1 ≤ s.sp.toInt ∧ s.sp.toInt ≤ stackCap s)
      (down : p.toInt = s.sp.toInt - 1) (answer : sinkAnswer s = .fail e)
      (eq : t = (s.setSp p).setAnswered.setFault (.outputError e))

theorem overflow_of_narrow {v : Int} {k : FaultKind} (h : narrow v = .error k) : k = .arithmeticOverflow := by
  rcases narrow_cases v with ⟨_, e⟩ | ⟨_, _, _, e⟩ <;> rw [e] at h <;> cases h
  rfl

theorem effect_of_push {i : Instr} {s t : State} (v : Word) (who : i.mnemonic = .LIT ∨ i.mnemonic = .LOD)
    (h : execLit v s = .next t) : ExecEffect i s t := by
  rcases execLit_cases v s with ⟨_, e⟩ | ⟨h0, h1, h2, e⟩ | ⟨h0, h1, p, hp, e⟩ <;> rw [e] at h <;> cases h
  · exact .raise _ (.inr (.inl rfl)) rfl
  · exact .ceiling v who ⟨h0, h1⟩ h2 rfl
  · exact .pushed v p who h0 h1 hp rfl

theorem effect_of_binOp {i : Instr} {s t : State} (f : Word → Word → Except FaultKind Word)
    (who : i.mnemonic ∈ [Mnemonic.ADD, .SUB, .MUL, .DIV])
    (kind : ∀ a b k, f a b = .error k →
      k = .arithmeticOverflow ∨ (k = .divideByZero ∧ i.mnemonic = .DIV))
    (h : conclude (binOp f s) = .next t) : ExecEffect i s t := by
  rcases conclude_binOp_cases f s with ⟨_, e⟩ | ⟨h0, h1, ⟨k, hk, e⟩ | ⟨r, p, _, hp, e⟩⟩ <;> rw [e] at h <;> cases h
  · exact .raise _ (.inr (.inl rfl)) rfl
  · refine .raise k ?_ rfl
    rcases kind _ _ _ hk with hk | hk
    · exact .inr (.inr (.inl ⟨hk, who⟩))
    · exact .inr (.inr (.inr hk))
  · exact .stored _ r p (.inr ⟨who, rfl, h0⟩)
      ⟨by simp only [secondIndex]; omega, by simp only [secondIndex]; omega⟩ h1 hp rfl

/-- Everything an executed instruction can do (R86 to R98, R104). -/
theorem exec_effect {i : Instr} {s t : State} (h : exec i s = .next t) : ExecEffect i s t := by
  cases i with
  | ill x => cases h; exact .raise _ (.inl ⟨rfl, rfl⟩) rfl
  | lit x => exact effect_of_push x (.inl rfl) h
  | lod x =>
    change execLod x s = .next t at h
    rcases execLod_cases x s with ⟨_, e⟩ | ⟨_, _, e⟩ <;> rw [e] at h
    · cases h; exact .raise _ (.inr (.inl rfl)) rfl
    · exact effect_of_push _ (.inr rfl) h
  | sto x =>
    change execSto x s = .next t at h
    rcases execSto_cases x s with ⟨_, e⟩ | ⟨h0, h1, h2, h3, p, hp, e⟩ <;> rw [e] at h <;> cases h
    · exact .raise _ (.inr (.inl rfl)) rfl
    · exact .stored _ _ p (.inl ⟨x, rfl, rfl, h0⟩) ⟨h2, h3⟩ h1 hp rfl
  | add x => exact effect_of_binOp aluAdd (by simp [Instr.mnemonic]) (fun _ _ _ h => .inl (overflow_of_narrow h)) h
  | sub x => exact effect_of_binOp aluSub (by simp [Instr.mnemonic]) (fun _ _ _ h => .inl (overflow_of_narrow h)) h
  | mul x => exact effect_of_binOp aluMul (by simp [Instr.mnemonic]) (fun _ _ _ h => .inl (overflow_of_narrow h)) h
  | div x =>
    refine effect_of_binOp aluDiv (by simp [Instr.mnemonic]) (fun a b k h => ?_) h
    unfold aluDiv at h
    split at h
    · cases h; exact .inr ⟨rfl, rfl⟩
    · split at h
      · cases h; exact .inl rfl
      · exact .inl (overflow_of_narrow h)
  | wrt x =>
    change execWrt s = .next t at h
    rcases execWrt_cases s with ⟨_, e⟩ | ⟨h0, h1, p, hp, ⟨ha, e⟩ | ⟨k, hk, e⟩⟩ <;> rw [e] at h <;> cases h
    · exact .raise _ (.inr (.inl rfl)) rfl
    · exact .emitted p rfl ⟨h0, h1⟩ hp ha rfl
    · exact .sinkFailed p k rfl ⟨h0, h1⟩ hp hk rfl

/-- The end of an instruction is always a next state (R104). -/
theorem conclude_next (r : Res Unit) : ∃ t, conclude r = .next t := by
  cases r with
  | ok a s => exact ⟨_, rfl⟩
  | raised k s => exact ⟨_, rfl⟩

end Sys2Proof.Machine
end

