-- ==== Sys2Proof/Laws/PerInstr.lean ====
section
/-! SUPPORT. Statements made for every instruction, one lemma per constructor. -/

namespace Sys2Proof.Laws

namespace RecordFields

/-- The record of an instruction has its mnemonic's tag as op and its operand as x, bit for bit (R55,
R56), also where the operation never reads x (R57). -/
def Statement (i : Instr) : Prop :=
  ∀ t : TagMap, (encodeRecord t i).op = t.of i.mnemonic ∧ (encodeRecord t i).x = i.operand

theorem ill (x : Word) : Statement (.ill x) := fun _ => ⟨rfl, rfl⟩
theorem lit (x : Word) : Statement (.lit x) := fun _ => ⟨rfl, rfl⟩
theorem lod (x : Word) : Statement (.lod x) := fun _ => ⟨rfl, rfl⟩
theorem sto (x : Word) : Statement (.sto x) := fun _ => ⟨rfl, rfl⟩
theorem add (x : Word) : Statement (.add x) := fun _ => ⟨rfl, rfl⟩
theorem sub (x : Word) : Statement (.sub x) := fun _ => ⟨rfl, rfl⟩
theorem mul (x : Word) : Statement (.mul x) := fun _ => ⟨rfl, rfl⟩
theorem div (x : Word) : Statement (.div x) := fun _ => ⟨rfl, rfl⟩
theorem wrt (x : Word) : Statement (.wrt x) := fun _ => ⟨rfl, rfl⟩

end RecordFields

end Sys2Proof.Laws
end

