-- ==== Sys2Proof/Tests/Slice0.lean ====
section
/-! SUPPORT. Tests against the spec's own vectors (95_test_vectors.md), the smoke tests of WellFormed, and one
witness for every statement that has hypotheses. -/

namespace Sys2Proof.Tests

open Sys2Proof Sys2Proof.Machine Sys2Proof.Safety

/-! ## Decoding: words written out from the encodings of R53 and R55 -/

theorem test_decode_ill : decodeTableWord 64 0x0000000700000000 = some (.ill 7) := by decide
theorem test_decode_lit : decodeTableWord 64 0x7FFFFFFF00000001 = some (.lit 2147483647) := by decide
theorem test_decode_lod : decodeTableWord 64 0x8000000000000002 = some (.lod (-2147483648)) := by decide
theorem test_decode_sto : decodeTableWord 64 0x0000000600000003 = some (.sto 6) := by decide
theorem test_decode_add : decodeTableWord 64 0x0000000000000004 = some (.add 0) := by decide
theorem test_decode_sub : decodeTableWord 64 0x0000000000000005 = some (.sub 0) := by decide
theorem test_decode_mul : decodeTableWord 64 0x0000000000000006 = some (.mul 0) := by decide
theorem test_decode_div : decodeTableWord 64 0x0000000000000007 = some (.div 0) := by decide
/-- Vector F10: WRT with x = 123. -/
theorem test_decode_wrt : decodeTableWord 64 0x0000007B00000008 = some (.wrt 123) := by decide
/-- Vectors F6 and F7: op 9 and op -1 are no opcode, and are rejected by name. -/
theorem test_decode_rejects : decodeRecord TagMap.default ⟨9, 0⟩ = .error (.illegalOpcode 9) ∧
    decodeRecord TagMap.default ⟨-1, 0⟩ = .error (.illegalOpcode (-1)) := by decide
theorem test_decode_short : decodeBytes TagMap.default [1, 0, 0, 0, 5, 0, 0] = .error .shortRecord := by decide
/-- S7's first record, byte for byte. -/
theorem test_encode_lit_max : encode TagMap.default (.lit 2147483647) = [1, 0, 0, 0, 0xFF, 0xFF, 0xFF, 0x7F] := by
  decide

/-! ## WellFormed: an ill-formed term for each check -/

/-- Another injective TAG: the reverse numbering. -/
def reversedTags : TagMap := ⟨8, 7, 6, 5, 4, 3, 2, 1, 0⟩

theorem smoke_operand_convention : Instr.wellFormed (.add 1) = false ∧ Instr.wellFormed (.ill 7) = false := by decide
theorem smoke_executable : Instr.executable (.ill 0) = false := by decide
theorem smoke_injective : TagMap.injective { TagMap.default with wrt := 1 } = false := by decide
theorem smoke_injective_accepts : TagMap.default.injective = true ∧ reversedTags.injective = true := by decide
/-- One record more than a signed 32-bit count can say. -/
theorem smoke_fits_count (seq : List Record) (h : seq.length = 2147483648) : fitsCount seq = false := by
  unfold fitsCount; rw [h]; rfl

/-! ## Machines to run one step on -/

/-- Words v0, v1, … at indices n, n + 1, … -/
def listed (n : Nat) : List Word → Memory
  | [] => []
  | v :: vs => (n, v) :: listed (n + 1) vs

/-- A loaded machine whose code array is the one record r, with IP = 0 (the conventions of
95_test_vectors.md sections 4 to 7), bound to a sink that accepts once. -/
def machine (cap : Capacity) (sp : Word) (words : List Word) (r : Record) : State :=
  { State.construct ⟨cap, 1, 0, TagMap.default⟩ [.accept] with
    sp := sp, mem := listed 0 words, code := [r], mode := .loaded }

/-- What the vectors compare after one step. -/
structure Seen where
  ip : Word
  sp : Word
  fault : Option FaultKind
  mem : Memory
  out : List Byte
deriving DecidableEq

/-- IP, SP, FAULT, the listed words and OUT after one step. -/
def afterStep (s : State) : Option Seen :=
  match step s with
  | .next t => some ⟨t.ip, t.sp, t.fault, t.mem, t.out⟩
  | .fault _ => none
  | .refused _ => none

/-! ## Data transfer (95_test_vectors.md section 4) -/

/-- L1. -/
theorem test_lit : afterStep (machine 4 0 [] ⟨1, 7⟩) = some ⟨1, 1, none, [(0, 7)], []⟩ := by decide
/-- L5: with STACK_CAP = 0 the write index 0 is out of range. -/
theorem test_lit_no_array : afterStep (machine 0 0 [] ⟨1, 1⟩) = some ⟨1, 0, some .memoryError, [], []⟩ := by decide
/-- D6: LOD reads the sentinel slot. -/
theorem test_lod_sentinel : afterStep { machine 4 0 [] ⟨2, 3⟩ with mem := [(3, 42)] } =
    some ⟨1, 1, none, [(0, 42), (3, 42)], []⟩ := by decide
/-- D9: the read comes before the push. -/
theorem test_lod_out_of_range_on_full : afterStep (machine 4 3 [] ⟨2, 9⟩) =
    some ⟨1, 3, some .memoryError, [], []⟩ := by decide
/-- T1. -/
theorem test_sto : afterStep (machine 4 2 [9, 4] ⟨3, 0⟩) = some ⟨1, 1, none, [(0, 4), (1, 4)], []⟩ := by decide
/-- T3: a failed write does not decrement SP. -/
theorem test_sto_out_of_range : afterStep (machine 4 1 [6] ⟨3, 4⟩) =
    some ⟨1, 1, some .memoryError, [(0, 6)], []⟩ := by decide

/-! ## Arithmetic (sections 5 and 6) -/

/-- A6. -/
theorem test_add : afterStep (machine 4 2 [2147483647, -2147483648] ⟨4, 0⟩) =
    some ⟨1, 1, none, [(0, -1), (1, -2147483648)], []⟩ := by decide
/-- A5. -/
theorem test_add_overflow : afterStep (machine 4 2 [-2147483648, -1] ⟨4, 0⟩) =
    some ⟨1, 2, some .arithmeticOverflow, [(0, -2147483648), (1, -1)], []⟩ := by decide
/-- B1: earlier minus later. -/
theorem test_sub : afterStep (machine 4 2 [0, 1] ⟨5, 0⟩) = some ⟨1, 1, none, [(0, -1), (1, 1)], []⟩ := by decide
/-- B5: no overflow at the end of the range. -/
theorem test_sub_to_max : afterStep (machine 4 2 [-1, -2147483648] ⟨5, 0⟩) =
    some ⟨1, 1, none, [(0, 2147483647), (1, -2147483648)], []⟩ := by decide
/-- M6. -/
theorem test_mul_to_min : afterStep (machine 4 2 [-65536, 32768] ⟨6, 0⟩) =
    some ⟨1, 1, none, [(0, -2147483648), (1, 32768)], []⟩ := by decide
/-- M3: the reverse order of INT_MIN by -1 faults too. -/
theorem test_mul_overflow : afterStep (machine 4 2 [-1, -2147483648] ⟨6, 0⟩) =
    some ⟨1, 2, some .arithmeticOverflow, [(0, -1), (1, -2147483648)], []⟩ := by decide
/-- Q3: truncation toward zero. -/
theorem test_div : afterStep (machine 4 2 [-7, 2] ⟨7, 0⟩) = some ⟨1, 1, none, [(0, -3), (1, 2)], []⟩ := by decide
/-- Q8: the zero check comes first. -/
theorem test_div_zero : afterStep (machine 4 2 [-2147483648, 0] ⟨7, 0⟩) =
    some ⟨1, 2, some .divideByZero, [(0, -2147483648), (1, 0)], []⟩ := by decide

/-! ## Output, ILL and fetch (sections 2 and 7) -/

/-- W4: "-2147483648" and a newline. -/
theorem test_wrt_min : afterStep (machine 4 1 [-2147483648] ⟨8, 0⟩) =
    some ⟨1, 0, none, [(0, -2147483648)],
      [0x2D, 0x32, 0x31, 0x34, 0x37, 0x34, 0x38, 0x33, 0x36, 0x34, 0x38, 0x0A]⟩ := by decide
/-- W9 without its SP: a failing sink. -/
theorem test_wrt_sink_fails :
    (afterStep { machine 4 1 [5] ⟨8, 0⟩ with sinkAnswers := [.fail 3] }).map (fun r => (r.fault, r.out)) =
      some (some (.outputError 3), []) := by decide
/-- F5: ILL with x ≠ 0. -/
theorem test_ill : afterStep (machine 4 0 [] ⟨0, 7⟩) = some ⟨0, 0, some .illegalInstruction, [], []⟩ := by decide
/-- F2 and F3: IP at CODE_CAP and at -1. -/
theorem test_fetch_out_of_range :
    afterStep { machine 4 0 [] ⟨1, 5⟩ with ip := 1 } = some ⟨1, 0, some .illegalInstruction, [], []⟩ ∧
    afterStep { machine 4 0 [] ⟨1, 5⟩ with ip := -1 } = some ⟨-1, 0, some .illegalInstruction, [], []⟩ := by decide
/-- `withFetchWord` at reset: the very next step runs the word. -/
theorem test_fetch_word : afterStep (State.reset.withFetchWord 64 0x0000000500000001) =
    some ⟨1, 1, none, [(0, 5)], []⟩ := by decide

/-! ## Host commands, container and assembler (sections 3, 8 and 9) -/

/-- H3: a load of the wrong length. -/
theorem test_load_mismatch :
    issue (.load [⟨1, 0⟩]) (State.construct ⟨4, 2, 0, TagMap.default⟩ []) =
      (State.construct ⟨4, 2, 0, TagMap.default⟩ [], .codeSizeMismatch) := by decide
/-- F11 and F12: a RUN of no code completes at once. -/
theorem test_run_no_code :
    (issue .run (issue (.load []) (State.construct ⟨4, 0, -5, TagMap.default⟩ [])).1).2 = .completed := by decide
/-- K3. -/
theorem test_container : encodeContainer ⟨0x41, 0x42, 0x43, 0x44⟩ [⟨1, 7⟩] (-1) =
    [0x41, 0x42, 0x43, 0x44, 1, 0, 0, 0, 1, 0, 0, 0, 0xFF, 0xFF, 0xFF, 0xFF, 1, 0, 0, 0, 7, 0, 0, 0] := by decide
/-- G3: "  Lit   -3  ". -/
theorem test_parse_spaces : parseLine [0x20, 0x20, 0x4C, 0x69, 0x74, 0x20, 0x20, 0x20, 0x2D, 0x33, 0x20, 0x20] =
    some (.lit (-3)) := by decide
/-- G12: "ADD 1", and G15: the empty line. -/
theorem test_not_parseable : parseLine [0x41, 0x44, 0x44, 0x20, 0x31] = none ∧ parseLine [] = none := by decide

/-! ## Witnesses: every hypothesis of every statement can be met -/

/-- A machine in the middle of its life meets the invariant. -/
theorem inv_machine (sp : Word) (words : List Word) (r : Record)
    (h : Memory.wf 8 (listed 0 words) = true) (h0 : 0 ≤ sp.toInt) (h1 : sp.toInt ≤ 7) :
    MachineInv (machine 8 sp words r) :=
  ⟨h, h0, by simp [machine, stackCap, State.construct]; omega, by simp [machine, State.construct],
    fun _ => rfl, .inl rfl, Nat.zero_le _⟩

theorem witness_DecodeOfEncodeIsInstruction : reversedTags.injective = true := by decide

theorem witness_EncodeOfDecodeIsBytes :
    decodeBytes TagMap.default [3, 0, 0, 0, 5, 0, 0, 0, 9] = .ok (.sto 5, [9]) := by decide

/-- LEGAL at its two ends, and the op values beside them. -/
theorem witness_LegalOpcodesAreExactlyLegal :
    reversedTags.injective = true ∧ (1 : Word) ∈ legalOps TagMap.default ∧ (8 : Word) ∈ legalOps TagMap.default ∧
    (0 : Word) ∉ legalOps TagMap.default ∧ (9 : Word) ∉ legalOps TagMap.default := by decide

/-- The bounds of the array of four words, from both sides (MemReadChecksBounds, MemWriteStoresOneWord). -/
theorem witness_bounds : let s := machine 4 0 [] ⟨1, 0⟩;
    ((-1 : Int) < 0) ∧ stackCap s ≤ 4 ∧ ((0 : Int) ≤ 0 ∧ 0 < stackCap s) ∧ ((0 : Int) ≤ 3 ∧ 3 < stackCap s) := by decide

/-- Each clause of StackPointerPrimitives at the boundary. -/
theorem witness_StackPointerPrimitives :
    stackCap (machine 4 3 [] ⟨1, 0⟩) - 1 ≤ (machine 4 3 [] ⟨1, 0⟩).sp.toInt ∧
    (machine 4 2 [] ⟨1, 0⟩).sp.toInt < stackCap (machine 4 2 [] ⟨1, 0⟩) - 1 ∧
    (machine 4 0 [] ⟨1, 0⟩).sp.toInt ≤ 0 ∧ 0 < (machine 4 1 [] ⟨1, 0⟩).sp.toInt := by decide

theorem witness_LitPushesItsLiteral : let s := machine 4 2 [1, 2] ⟨1, 7⟩;
    0 ≤ s.sp.toInt ∧ s.sp.toInt < stackCap s - 1 := by decide

theorem witness_LodPushesTheWordAtX : let s := machine 4 2 [1, 2] ⟨2, 3⟩;
    0 ≤ dataIndex 3 ∧ dataIndex 3 < stackCap s ∧ 0 ≤ s.sp.toInt ∧ s.sp.toInt < stackCap s - 1 := by decide

theorem witness_StoStoresTheTopAtX : let s := machine 4 1 [6] ⟨3, 3⟩;
    1 ≤ s.sp.toInt ∧ s.sp.toInt ≤ stackCap s ∧ 0 ≤ dataIndex 3 ∧ dataIndex 3 < stackCap s := by decide

theorem witness_AddWritesTheExactSum : let s := machine 4 2 [2147483646, 1] ⟨4, 0⟩;
    2 ≤ s.sp.toInt ∧ s.sp.toInt ≤ stackCap s ∧
    In32 ((wordAt s (topIndex s).toNat).toInt + (wordAt s (secondIndex s).toNat).toInt) := by decide

theorem witness_SubWritesEarlierMinusLater : let s := machine 4 2 [-1, -2147483648] ⟨5, 0⟩;
    2 ≤ s.sp.toInt ∧ s.sp.toInt ≤ stackCap s ∧
    In32 ((wordAt s (secondIndex s).toNat).toInt - (wordAt s (topIndex s).toNat).toInt) := by decide

theorem witness_MulWritesTheExactProduct : let s := machine 4 2 [-65536, 32768] ⟨6, 0⟩;
    2 ≤ s.sp.toInt ∧ s.sp.toInt ≤ stackCap s ∧
    In32 ((wordAt s (topIndex s).toNat).toInt * (wordAt s (secondIndex s).toNat).toInt) := by decide

theorem witness_DivWritesTheTruncatedQuotient : let s := machine 4 2 [-2147483648, 2] ⟨7, 0⟩;
    (2 : Int) = (wordAt s (topIndex s).toNat).toInt ∧ intMin = (wordAt s (secondIndex s).toNat).toInt ∧
    2 ≤ s.sp.toInt ∧ s.sp.toInt ≤ stackCap s ∧ (2 : Int) ≠ 0 ∧ ¬ ((2 : Int) = -1 ∧ intMin = intMin) := by decide

theorem witness_WrtAppendsTheTopInDecimal : let s := machine 4 1 [-1] ⟨8, 0⟩;
    1 ≤ s.sp.toInt ∧ s.sp.toInt ≤ stackCap s ∧ sinkAnswer s = .accept := by decide

theorem witness_IllRaisesIllegalInstruction : let s := machine 4 0 [] ⟨0, 7⟩;
    s.params.tag.injective = true ∧ s.mode = .loaded ∧ 0 ≤ s.ip.toInt ∧ s.ip.toInt < codeCap s ∧
    (codeAt s s.ip.toInt.toNat).op = s.params.tag.ill := by decide

/-- LIT, and LOD with X at both ends of the array. -/
theorem witness_PushAtTheCeilingOverflows : let s := machine 4 3 [8] ⟨2, 0⟩;
    1 ≤ stackCap s ∧ s.sp.toInt = stackCap s - 1 ∧ (0 ≤ dataIndex 0 ∧ dataIndex 0 < stackCap s) ∧
    (0 ≤ dataIndex 3 ∧ dataIndex 3 < stackCap s) := by decide

/-- X just below and just above the array, with one entry for STO. -/
theorem witness_OperandOutOfRangeIsMemoryError : let s := machine 4 1 [6] ⟨3, 4⟩;
    (dataIndex (-1) < 0 ∨ stackCap s ≤ dataIndex (-1)) ∧ (dataIndex 4 < 0 ∨ stackCap s ≤ dataIndex 4) ∧
    1 ≤ s.sp.toInt ∧ s.sp.toInt ≤ stackCap s := by decide

theorem witness_TooFewEntriesFault :
    (machine 4 0 [] ⟨3, 0⟩).sp.toInt ≤ 0 ∧ (machine 4 1 [5] ⟨4, 0⟩).sp.toInt ≤ 1 := by decide

/-- Both sides of the overflow edge: INT_MAX + 1 and INT_MIN by -1 do not fit, the others do. -/
theorem witness_OverflowFaultsExactlyOutOfRange :
    (let s := machine 4 2 [2147483647, 1] ⟨4, 0⟩;
      (1 : Int) = (wordAt s (topIndex s).toNat).toInt ∧ intMax = (wordAt s (secondIndex s).toNat).toInt ∧
      2 ≤ s.sp.toInt ∧ s.sp.toInt ≤ stackCap s ∧ s.fault = none ∧
      ¬ In32 (1 + intMax) ∧ In32 (intMax - 1) ∧ In32 (1 * intMax)) ∧
    (let s := machine 4 2 [-2147483648, -1] ⟨7, 0⟩;
      (-1 : Int) = (wordAt s (topIndex s).toNat).toInt ∧ intMin = (wordAt s (secondIndex s).toNat).toInt ∧
      s.fault = none ∧ ¬ In32 (-1 * intMin)) := by decide

theorem witness_DivByZeroFaults : let s := machine 4 2 [-2147483648, 0] ⟨7, 0⟩;
    2 ≤ s.sp.toInt ∧ s.sp.toInt ≤ stackCap s ∧ (wordAt s (topIndex s).toNat).toInt = 0 := by decide

theorem witness_SinkFailureIsOutputError : let s := { machine 4 1 [5] ⟨8, 0⟩ with sinkAnswers := [.fail 3] };
    1 ≤ s.sp.toInt ∧ s.sp.toInt ≤ stackCap s ∧ sinkAnswer s = .fail 3 := by decide

theorem witness_EmptyArrayFaultsEveryInstruction : stackCap (machine 0 0 [] ⟨1, 0⟩) = 0 := by decide

/-- OutOnlyGrowsAndOnlyByWrt: a WRT that makes OUT longer, at execute and as a step, and a command that is
no construction. -/
theorem witness_OutOnlyGrowsAndOnlyByWrt :
    (∀ p answers, Command.run ≠ .construct p answers) ∧
    (∃ t, exec (.wrt 0) (machine 4 1 [5] ⟨8, 0⟩) = .next t ∧ t.out = [0x35, 0x0A]) ∧
    (∃ t, step (machine 4 1 [5] ⟨8, 0⟩) = .next t ∧ t.out = [0x35, 0x0A]) :=
  ⟨by simp, ⟨_, rfl, by decide⟩, ⟨_, rfl, by decide⟩⟩

/-- InstructionFrame and MemoryFrame: an instruction that completes. -/
theorem witness_frames : ∃ t, exec (.add 0) (machine 4 2 [1, 2] ⟨4, 0⟩) = .next t ∧
    ((1 : Nat) : Int) ≠ secondIndex (machine 4 2 [1, 2] ⟨4, 0⟩) := ⟨_, rfl, by decide⟩

/-- CompletingInstructionMovesSp: one that goes up and one that goes down. -/
theorem witness_CompletingInstructionMovesSp :
    (∃ t, exec (.lit 7) (machine 4 2 [1, 2] ⟨1, 7⟩) = .next t ∧ t.fault = none) ∧
    (∃ t, exec (.sto 0) (machine 4 2 [1, 2] ⟨3, 0⟩) = .next t ∧ t.fault = none) :=
  ⟨⟨_, rfl, by decide⟩, ⟨_, rfl, by decide⟩⟩

/-- FaultLeavesStateButSentinel: a push at the ceiling of a machine that meets the invariant. -/
theorem witness_FaultLeavesStateButSentinel : let s := machine 8 7 [1] ⟨1, 9⟩;
    MachineInv s ∧ s.fault = none ∧ ∃ t, exec (.lit 9) s = .next t ∧ t.fault = some .stackOverflow :=
  ⟨inv_machine 7 [1] ⟨1, 9⟩ (by decide) (by decide) (by decide), rfl, _, rfl, by decide⟩

/-- FaultKindsByInstruction: each of the four kinds it speaks about. -/
theorem witness_FaultKindsByInstruction :
    (∃ t, exec (.ill 0) (machine 4 0 [] ⟨0, 0⟩) = .next t ∧ t.fault = some .illegalInstruction) ∧
    (∃ t, exec (.mul 0) (machine 4 2 [65536, 32768] ⟨6, 0⟩) = .next t ∧ t.fault = some .arithmeticOverflow) ∧
    (∃ t, exec (.div 0) (machine 4 2 [5, 0] ⟨7, 0⟩) = .next t ∧ t.fault = some .divideByZero) ∧
    (∃ t, exec (.wrt 0) { machine 4 1 [5] ⟨8, 0⟩ with sinkAnswers := [.fail 3] } = .next t ∧
      t.fault = some (.outputError 3)) :=
  ⟨⟨_, rfl, by decide⟩, ⟨_, rfl, by decide⟩, ⟨_, rfl, by decide⟩, ⟨_, rfl, by decide⟩⟩

/-- ZeroOperandIgnoresX: WRT with x = 123 (vector F10), stepping, stopped by a fault and refused. -/
theorem witness_ZeroOperandIgnoresX : let s := machine 4 1 [3] ⟨8, 0⟩;
    s.params.tag.injective = true ∧ Mnemonic.usesOperand .WRT = false ∧
    (∃ t, step { s with code := s.code.set 0 ⟨s.params.tag.of .WRT, 123⟩ } = .next t) ∧
    (∃ r, step { { s with mode := .faulted } with code := s.code.set 0 ⟨s.params.tag.of .WRT, 123⟩ } = .fault r) ∧
    (∃ r, step { { s with mode := .unloaded } with code := s.code.set 0 ⟨s.params.tag.of .WRT, 123⟩ } = .refused r) :=
  ⟨by decide, by decide, ⟨_, rfl⟩, ⟨_, rfl⟩, ⟨_, rfl⟩⟩

theorem witness_OrderLawsOfArithmetic : let s := machine 4 1 [3] ⟨8, 0⟩;
    s.fault = none ∧ 0 ≤ s.sp.toInt ∧ s.sp.toInt + 2 ≤ stackCap s - 1 ∧
    In32 ((0 : Word).toInt - (1 : Word).toInt) ∧ (2 : Word).toInt ≠ 0 ∧
    ¬ ((2 : Word).toInt = -1 ∧ (7 : Word).toInt = intMin) := by decide

/-- StepRunsTheDecodedInstruction: an executable record, and ILL. -/
theorem witness_StepRunsTheDecodedInstruction :
    (let s := machine 4 0 [] ⟨1, 7⟩;
      s.mode = .loaded ∧ 0 ≤ s.ip.toInt ∧ s.ip.toInt < codeCap s ∧
      decodeRecord s.params.tag (codeAt s s.ip.toInt.toNat) = .ok (.lit 7) ∧ Instr.executable (.lit 7) = true) ∧
    (let s := machine 4 0 [] ⟨0, 7⟩;
      decodeRecord s.params.tag (codeAt s s.ip.toInt.toNat) = .ok (.ill 7) ∧ Instr.executable (.ill 7) = false) := by decide

/-- FetchRejectsIllegal: each of its three cases. -/
theorem witness_FetchRejectsIllegal : let s := machine 4 0 [] ⟨9, 0⟩;
    s.params.tag.injective = true ∧ s.mode = .loaded ∧
    ({ s with ip := -1 }).ip.toInt < 0 ∧ codeCap s ≤ ({ s with ip := 1 }).ip.toInt ∧
    (codeAt s s.ip.toInt.toNat).op ∉ legalOps s.params.tag := by decide

/-- IpAdvancesBeforeExecute and ExecuteSeesOnlyExecutable: a fetch that goes on. -/
theorem witness_IpAdvancesBeforeExecute :
    (machine 4 0 [] ⟨1, 7⟩).params.tag.injective = true ∧
    (∃ t, fetch (machine 4 0 [] ⟨1, 7⟩) = .ok ⟨.lit 7, rfl⟩ t) ∧ (machine 4 0 [] ⟨1, 7⟩).mode = .loaded ∧
    (∃ t, exec (.lit 7) (machine 4 0 [] ⟨1, 7⟩) = .next t) := ⟨by decide, ⟨_, rfl⟩, rfl, ⟨_, rfl⟩⟩

/-- StepExistsOnlyWhenLoaded: each of the three modes. -/
theorem witness_StepExistsOnlyWhenLoaded : (machine 4 0 [] ⟨1, 7⟩).mode = .loaded ∧ State.reset.mode = .unloaded ∧
    ((machine 4 0 [] ⟨1, 7⟩).setFault .memoryError).mode = .faulted := by decide

/-- A step that answers a next state from a machine that meets the invariant (StepCompletesOrFaults,
InvariantKeptByStep, InvariantKeptByCommands). -/
theorem witness_step_from_invariant : MachineInv (machine 8 1 [5] ⟨8, 0⟩) ∧
    ∃ t, step (machine 8 1 [5] ⟨8, 0⟩) = .next t :=
  ⟨inv_machine 1 [5] ⟨8, 0⟩ (by decide) (by decide) (by decide), _, rfl⟩

theorem witness_IpAfterCleanSteps : ∃ t, cleanSteps 1 (machine 4 0 [] ⟨1, 7⟩) = some t := ⟨_, rfl⟩

theorem witness_ConstructSetsResetValues :
    ∃ t r, issue (.construct ⟨4, 2, -5, reversedTags⟩ [.fail 1]) State.reset = (t, r) := ⟨_, _, rfl⟩

/-- LoadReplacesTheCodeArray: a wrong length and the right one. -/
theorem witness_LoadReplacesTheCodeArray : State.reset.mode = .unloaded ∧
    ([] : List Record).length ≠ State.reset.params.codeCap.val ∧
    [(⟨9, 0⟩ : Record)].length = State.reset.params.codeCap.val := by decide

theorem witness_CommandsRefusedOutsideTheirMode :
    State.reset.mode ≠ .loaded ∧ (machine 4 0 [] ⟨1, 7⟩).mode ≠ .unloaded := by decide

/-- RunCompletesOrFaults: a RUN that completes, and one that faults. -/
theorem witness_RunCompletesOrFaults :
    MachineInv (machine 8 0 [] ⟨1, 7⟩) ∧ (machine 8 0 [] ⟨1, 7⟩).mode = .loaded ∧
    (issue .run (machine 8 0 [] ⟨1, 7⟩)).2 = .completed ∧
    (issue .run (machine 8 0 [] ⟨0, 7⟩)).2 = .faulted .illegalInstruction :=
  ⟨inv_machine 0 [] ⟨1, 7⟩ (by decide) (by decide) (by decide), rfl, by decide, by decide⟩

/-- RunCompletesOnlyFromIndexZero and NothingRunsAfterACompletedRun: a RUN that completes with
CODE_CAP = 1. -/
theorem witness_completed_run : MachineInv (machine 8 0 [] ⟨1, 7⟩) ∧ (machine 8 0 [] ⟨1, 7⟩).mode = .loaded ∧
    1 ≤ codeCap (machine 8 0 [] ⟨1, 7⟩) ∧ ∃ t, issue .run (machine 8 0 [] ⟨1, 7⟩) = (t, .completed) :=
  ⟨inv_machine 0 [] ⟨1, 7⟩ (by decide) (by decide) (by decide), rfl, by decide, _, rfl⟩

/-- The other clause of RunCompletesOnlyFromIndexZero: a loaded machine with CODE_CAP = 0. -/
theorem witness_run_no_code : let s := (State.construct ⟨4, 0, -5, TagMap.default⟩ []).setCode [];
    MachineInv s ∧ s.mode = .loaded ∧ codeCap s = 0 :=
  ⟨⟨rfl, by decide, by decide, by decide, fun _ => rfl, .inl rfl, by decide⟩, rfl, rfl⟩

theorem witness_ContainerRoundTrip : fitsCount [⟨1, 7⟩] = true := by decide

/-- ContainerReadsNoFurther: vector K3 with two bytes after it, and a bare header with a negative count. -/
theorem witness_ContainerReadsNoFurther :
    (let bs : List Byte := [0x41, 0x42, 0x43, 0x44, 1, 0, 0, 0, 1, 0, 0, 0, 0xFF, 0xFF, 0xFF, 0xFF,
        1, 0, 0, 0, 7, 0, 0, 0, 0xAA, 0xBB];
      16 ≤ bs.length ∧ (bs.drop 8).take 4 = bytesOfWord 1 ∧ 16 + 8 * (1 : Word).toInt.toNat ≤ bs.length) ∧
    (let bs : List Byte := [0x41, 0x42, 0x43, 0x44, 1, 0, 0, 0, 0xFF, 0xFF, 0xFF, 0xFF, 0, 0, 0, 0];
      16 ≤ bs.length ∧ (bs.drop 8).take 4 = bytesOfWord (-1) ∧ 16 + 8 * (-1 : Word).toInt.toNat ≤ bs.length) := by
  decide

/-- ContainerReadsNoFurther and BootLoadsTheContainer: a byte string that decodes. -/
theorem witness_container_decodes : decodeContainer ⟨0x41, 0x42, 0x43, 0x44⟩
    [0x41, 0x42, 0x43, 0x44, 1, 0, 0, 0, 1, 0, 0, 0, 0xFF, 0xFF, 0xFF, 0xFF, 1, 0, 0, 0, 7, 0, 0, 0, 0xAA, 0xBB] =
      .ok ([⟨1, 7⟩], -1) := by decide

/-- ContainerErrorsInOrder: a short header (K8), another signature (K5), version 2 (K6), a negative count
(K10) and a short record (K9). -/
theorem witness_ContainerErrorsInOrder :
    List.length ([0x41] : List Byte) < 16 ∧
    List.take 4 ([0x42, 0x42, 0x43, 0x44] : List Byte) ≠ [0x41, 0x42, 0x43, 0x44] ∧
    (let bs : List Byte := [0x41, 0x42, 0x43, 0x44, 2, 0, 0, 0, 0, 0, 0, 0, 0, 0, 0, 0];
      16 ≤ bs.length ∧ bs.take 4 = [0x41, 0x42, 0x43, 0x44] ∧ (bs.drop 4).take 4 ≠ bytesOfWord 1) ∧
    (let bs : List Byte := [0x41, 0x42, 0x43, 0x44, 1, 0, 0, 0, 0xFF, 0xFF, 0xFF, 0xFF, 0, 0, 0, 0];
      (bs.drop 4).take 4 = bytesOfWord 1 ∧ (bs.drop 8).take 4 = bytesOfWord (-1) ∧ (-1 : Word).toInt < 0) ∧
    (let bs : List Byte := [0x41, 0x42, 0x43, 0x44, 1, 0, 0, 0, 1, 0, 0, 0, 0, 0, 0, 0, 9];
      (bs.drop 8).take 4 = bytesOfWord 1 ∧ (bs.length : Int) < 16 + 8 * (1 : Word).toInt) := by decide

theorem witness_ContainerLengthIsExact : 23 < 16 + 8 * List.length [(⟨1, 7⟩ : Record)] := by decide

/-- AssemblerRoundTrip: a well-formed instruction, and a line that parses. -/
theorem witness_AssemblerRoundTrip : Instr.wellFormed (.lit (-3)) = true ∧ Instr.wellFormed (.add 0) = true ∧
    parseLine [0x6C, 0x69, 0x74, 0x20, 0x2B, 0x35] = some (.lit 5) := by decide

end Sys2Proof.Tests
end

section
/-! PROOFS. The arithmetic instructions where they complete (R91), and division truncated toward zero (R92, R96). -/

namespace Sys2Proof.Machine

/-- R91, the completing case: with two entries on which f answers r, r is in the slot of the earlier operand,
SP is one lower, and nothing else has changed. -/
theorem conclude_binOp_of_ok {f : Word → Word → Except FaultKind Word} {s : State} {r : Word}
    (hlow : 2 ≤ s.sp.toInt) (hhigh : s.sp.toInt ≤ stackCap s)
    (hf : f (wordAt s (topIndex s).toNat) (wordAt s (secondIndex s).toNat) = .ok r) :
    ∃ m p, conclude (binOp f s) = .next { s with mem := m, sp := p } ∧ p.toInt = s.sp.toInt - 1 ∧
      ∀ j : Nat, Memory.word m j = if (j : Int) = secondIndex s then r else wordAt s j := by
  rcases conclude_binOp_cases f s with ⟨hout, _⟩ | ⟨_, _, ⟨k, hk, _⟩ | ⟨r', p, hr, hp, e⟩⟩
  · simp only [OutOfBounds, topIndex, secondIndex] at hout
    omega
  · rw [hf] at hk
    cases hk
  · rw [hf] at hr
    cases hr
    have hslot : 0 ≤ secondIndex s := by
      simp only [secondIndex]
      omega
    exact ⟨_, p, e, hp, fun j => Memory.word_store_toNat s.mem hslot r j⟩

/-- R92, the magnitude: floor(|n| / |d|). -/
theorem natAbs_truncDiv (n d : Int) : (truncDiv n d).natAbs = n.natAbs / d.natAbs :=
  Int.natAbs_tdiv n d

/-- R92, the sign: negative exactly when the signs are opposite and the magnitude is not zero. -/
theorem truncDiv_neg_iff {n d : Int} (hd : d ≠ 0) :
    truncDiv n d < 0 ↔ ((n < 0 ∧ 0 < d) ∨ (0 < n ∧ d < 0)) ∧ n.natAbs / d.natAbs ≠ 0 := by
  have hsign : (truncDiv n d).sign = if n.natAbs < d.natAbs then 0 else n.sign * d.sign :=
    Int.sign_tdiv n d
  have hzero : n.natAbs / d.natAbs = 0 ↔ n.natAbs < d.natAbs := by
    rw [Nat.div_eq_zero_iff, or_iff_right (Int.natAbs_ne_zero.mpr hd)]
  rw [← Int.sign_eq_neg_one_iff_neg, hsign, Ne, hzero]
  split_ifs with hlt
  · simp [hlt]
  · rw [← Int.sign_mul, Int.sign_eq_neg_one_iff_neg, mul_neg_iff]
    tauto

/-- R96: the quotient of two signed 32-bit values fits, except for INT_MIN by -1. -/
theorem in32_truncDiv {n d : Int} (hn : In32 n) (hd : d ≠ 0) (hedge : ¬ (d = -1 ∧ n = intMin)) :
    In32 (truncDiv n d) := by
  have hmag := natAbs_truncDiv n d
  simp only [In32, intMin, intMax] at hn hedge ⊢
  by_cases hone : d.natAbs = 1
  · rcases Int.natAbs_eq_iff.mp hone with rfl | rfl
    · simpa [truncDiv] using hn
    · simp only [truncDiv, Nat.cast_one, Int.tdiv_neg, Int.tdiv_one]
      omega
  · have hhalf : n.natAbs / d.natAbs ≤ n.natAbs / 2 := Nat.div_le_div_left (by omega) (by omega)
    omega

/-- R96: DIV's ALU function answers the truncated quotient but on zero and on INT_MIN by -1. -/
theorem aluDiv_eq_ok {a b : Word} (ha : a.toInt ≠ 0) (hedge : ¬ (a.toInt = -1 ∧ b.toInt = intMin)) :
    ∃ r : Word, aluDiv a b = .ok r ∧ r.toInt = truncDiv b.toInt a.toInt := by
  rcases narrow_cases (truncDiv b.toInt a.toInt) with ⟨hout, _⟩ | ⟨_, r, hr, e⟩
  · exact absurd (in32_truncDiv (toInt_range b) ha hedge) hout
  · exact ⟨r, by rw [aluDiv, if_neg ha, if_neg hedge, e], hr⟩

/-- Settles O15: `aluDiv` answers the truncated quotient, and R91's sequence completes with it. -/
theorem divWritesTheTruncatedQuotient : Obligations.DivWritesTheTruncatedQuotient := by
  unfold Obligations.DivWritesTheTruncatedQuotient
  rintro s x a b rfl rfl hlow hhigh ha hedge
  obtain ⟨r, halu, hr⟩ := aluDiv_eq_ok ha hedge
  obtain ⟨m, p, hexec, hp, hmem⟩ := conclude_binOp_of_ok hlow hhigh halu
  exact ⟨m, p, r, hexec, hp, hr ▸ natAbs_truncDiv _ _, hr ▸ truncDiv_neg_iff ha, hmem⟩

end Sys2Proof.Machine
end

section
/-! PROOFS. What the port, and what the rest of the machine, looks like after an instruction (R98 to R101,
R104): the frame that steps and runs inherit. -/

namespace Sys2Proof.Machine

/-- Only WRT makes a transfer, one of them, and OUT grows exactly when the sink accepts it (R99). -/
theorem exec_port {i : Instr} {s t : State} (h : exec i s = .next t) :
    (t.transfers = s.transfers ∧ t.sinkAnswers = s.sinkAnswers ∧ t.out = s.out) ∨
    (i.mnemonic = .WRT ∧ t.transfers = s.transfers + 1 ∧ t.sinkAnswers = s.sinkAnswers.tail ∧
      ((sinkAnswer s = .accept ∧ t.out = s.out ++ (dec (wordAt s (topIndex s).toNat) ++ [newline])) ∨
       (∃ e, sinkAnswer s = .fail e ∧ t.out = s.out))) := by
  cases exec_effect h with
  | raise _ _ eq | ceiling _ _ _ _ eq | pushed _ _ _ _ _ _ eq | stored _ _ _ _ _ _ _ eq =>
    subst eq
    exact .inl ⟨rfl, rfl, rfl⟩
  | emitted p who _ _ answer eq =>
    subst eq
    exact .inr ⟨who, rfl, rfl, .inl ⟨answer, rfl⟩⟩
  | sinkFailed p e who _ _ answer eq =>
    subst eq
    exact .inr ⟨who, rfl, rfl, .inr ⟨e, answer, rfl⟩⟩

/-- No instruction writes IP, the code array, RC or a parameter; FAULT and MODE stay, or a fault is entered
(R104). -/
theorem exec_control {i : Instr} {s t : State} (h : exec i s = .next t) :
    t.ip = s.ip ∧ t.code = s.code ∧ t.rc = s.rc ∧ t.params = s.params ∧
    ((t.fault = s.fault ∧ t.mode = s.mode) ∨ (∃ k, t.fault = some k ∧ t.mode = .faulted)) := by
  cases exec_effect h with
  | raise k _ eq =>
    subst eq
    exact ⟨rfl, rfl, rfl, rfl, .inr ⟨k, rfl, rfl⟩⟩
  | ceiling _ _ _ _ eq | sinkFailed _ _ _ _ _ _ eq =>
    subst eq
    exact ⟨rfl, rfl, rfl, rfl, .inr ⟨_, rfl, rfl⟩⟩
  | pushed _ _ _ _ _ _ eq | stored _ _ _ _ _ _ _ eq | emitted _ _ _ _ _ eq =>
    subst eq
    exact ⟨rfl, rfl, rfl, rfl, .inl ⟨rfl, rfl⟩⟩

/-- Settles O27: the frame of the control registers, and the port that only WRT touches. -/
theorem instructionFrame : Obligations.InstructionFrame := by
  unfold Obligations.InstructionFrame
  intro i s t h
  obtain ⟨hip, hcode, hrc, hparams, hlatch⟩ := exec_control h
  refine ⟨hip, hcode, hrc, hparams, hlatch, ?_⟩
  rcases exec_port h with hkept | ⟨hwrt, htransfers, hanswers, _⟩
  · exact .inl hkept
  · exact .inr ⟨hwrt, htransfers, hanswers⟩

theorem exec_out_prefix {i : Instr} {s t : State} (h : exec i s = .next t) : s.out <+: t.out := by
  rcases exec_port h with ⟨_, _, hout⟩ | ⟨_, _, _, ⟨_, hout⟩ | ⟨_, _, hout⟩⟩ <;> rw [hout]
  exact List.prefix_append _ _

end Sys2Proof.Machine
end

section
/-! PROOFS. What one step, and a row of steps without a fault, do to FAULT and MODE, to IP and to OUT (R75, R83,
R104). -/

namespace Sys2Proof.Machine

open Sys2Proof.Safety

/-- Every arm of `exec` is an instruction's end, so it answers a next state (R104). -/
theorem exec_next (i : Instr) (s : State) : ∃ t, exec i s = .next t := by
  cases i <;>
    simp only [exec, execIll, execLit, execLod, execSto, execAdd, execSub, execMul, execDiv, execWrt] <;>
    exact conclude_next _

/-- In MODE = Loaded a step always answers a next state (R80, R104). -/
theorem step_next_of_loaded {s : State} (h : s.mode = .loaded) : ∃ t, step s = .next t := by
  rcases step_loaded_cases h with e | ⟨_, _, i, p, _, _, _, e⟩
  · exact ⟨_, e⟩
  · rw [e]
    exact exec_next i _

/-- A step that answers a next state raised at fetch, or ran an instruction with IP one higher (R75, R80). -/
theorem step_next_cases {s t : State} (h : step s = .next t) :
    t = s.setFault .illegalInstruction ∨
    (0 ≤ s.ip.toInt ∧ s.ip.toInt < codeCap s ∧ ∃ i, ∃ p : Word,
      p.toInt = s.ip.toInt + 1 ∧ exec i (s.setIp p) = .next t) := by
  rcases step_loaded_cases (loaded_of_step h) with e | ⟨hlow, hhigh, i, p, _, _, hp, e⟩ <;> rw [h] at e
  · cases e
    exact .inl rfl
  · exact .inr ⟨hlow, hhigh, i, p, hp, e.symm⟩

/-- A step changes no parameter, not the code array and not RC (R24, R81). -/
theorem step_frame {s t : State} (h : step s = .next t) :
    t.params = s.params ∧ t.code = s.code ∧ t.rc = s.rc := by
  rcases step_next_cases h with rfl | ⟨_, _, i, p, _, he⟩
  · exact ⟨rfl, rfl, rfl⟩
  · obtain ⟨_, hcode, hrc, hparams, _⟩ := exec_control he
    exact ⟨hparams, hcode, hrc⟩

/-- From a state without a fault, a step completes in MODE = Loaded or enters a fault (R82, R104). -/
theorem step_latch {s t : State} (hf : s.fault = none) (h : step s = .next t) :
    (t.mode = .loaded ∧ t.fault = none) ∨ (t.mode = .faulted ∧ ∃ k, t.fault = some k) := by
  have hloaded := loaded_of_step h
  rcases step_next_cases h with rfl | ⟨_, _, i, p, _, he⟩
  · exact .inr ⟨rfl, _, rfl⟩
  · obtain ⟨_, _, _, _, ⟨hfault, hmode⟩ | ⟨k, hfault, hmode⟩⟩ := exec_control he
    · exact .inl ⟨hmode.trans hloaded, hfault.trans hf⟩
    · exact .inr ⟨hmode, k, hfault⟩

/-- A step that raises nothing advances IP by one (R75). -/
theorem step_clean_ip {s t : State} (h : step s = .next t) (hf : t.fault = none) :
    t.ip.toInt = s.ip.toInt + 1 := by
  rcases step_next_cases h with rfl | ⟨_, _, i, p, hp, he⟩
  · cases hf
  · obtain ⟨hip, _⟩ := exec_control he
    rw [hip]
    exact hp

theorem step_out_prefix {s t : State} (h : step s = .next t) : s.out <+: t.out := by
  rcases step_next_cases h with rfl | ⟨_, _, i, p, _, he⟩
  · exact List.prefix_rfl
  · exact (exec_out_prefix he :)

/-! ## Steps in a row (R83) -/

theorem cleanSteps_succ {s t : State} (n : Nat) (h : step s = .next t) (hf : t.fault = none) :
    cleanSteps (n + 1) s = cleanSteps n t := by
  simp only [cleanSteps, h, hf, if_true]

/-- A row of n + 1 clean steps begins with one. -/
theorem cleanSteps_succ_cases {n : Nat} {s u : State} (h : cleanSteps (n + 1) s = some u) :
    ∃ t, step s = .next t ∧ t.fault = none ∧ cleanSteps n t = some u := by
  cases hs : step s with
  | next t =>
    simp only [cleanSteps, hs] at h
    split at h
    · exact ⟨t, rfl, ‹_›, h⟩
    · cases h
  | fault r => simp [cleanSteps, hs] at h
  | refused r => simp [cleanSteps, hs] at h

/-- Settles O39, by induction on the number of steps. -/
theorem ipAfterCleanSteps : Obligations.IpAfterCleanSteps := by
  unfold Obligations.IpAfterCleanSteps
  intro n
  induction n with
  | zero =>
    intro s t h
    cases h
    exact ⟨by simp, rfl, rfl, rfl⟩
  | succ n ih =>
    intro s u h
    obtain ⟨t, hs, hf, hrest⟩ := cleanSteps_succ_cases h
    obtain ⟨hip, hparams, hcode, hrc⟩ := ih t u hrest
    obtain ⟨hparams', hcode', hrc'⟩ := step_frame hs
    have hip' := step_clean_ip hs hf
    exact ⟨by push_cast; omega, hparams.trans hparams', hcode.trans hcode', hrc.trans hrc'⟩

end Sys2Proof.Machine
end

section
/-! PROOFS. RUN's loop, turn by turn (R81), and OUT over steps and commands (R25). -/

namespace Sys2Proof.Machine

theorem runLoop_clean {s t : State} (n : Nat) (h : step s = .next t) (hf : t.fault = none) :
    runLoop (n + 1) s = runLoop n (t.setRc (t.rc + 1)) := by
  simp only [runLoop, h, hf]

theorem runLoop_faulted {s t : State} {k : FaultKind} (n : Nat) (h : step s = .next t) (hf : t.fault = some k) :
    runLoop (n + 1) s = t := by
  simp only [runLoop, h, hf]

/-- One turn of the loop: a clean step that RC counts, a step that raises and ends the loop, or no step. -/
theorem runLoop_succ_cases (n : Nat) (s : State) :
    (∃ t, step s = .next t ∧ t.fault = none ∧ runLoop (n + 1) s = runLoop n (t.setRc (t.rc + 1))) ∨
    (∃ t k, step s = .next t ∧ t.fault = some k ∧ runLoop (n + 1) s = t) ∨
    runLoop (n + 1) s = s := by
  cases hs : step s with
  | next t =>
    cases hf : t.fault with
    | none => exact .inl ⟨t, rfl, hf, runLoop_clean n hs hf⟩
    | some k => exact .inr (.inl ⟨t, k, rfl, hf, runLoop_faulted n hs hf⟩)
  | fault r => exact .inr (.inr (by simp only [runLoop, hs]))
  | refused r => exact .inr (.inr (by simp only [runLoop, hs]))

theorem runLoop_out_prefix (n : Nat) (s : State) : s.out <+: (runLoop n s).out := by
  induction n generalizing s with
  | zero => exact List.prefix_rfl
  | succ n ih =>
    rcases runLoop_succ_cases n s with ⟨t, hs, _, e⟩ | ⟨t, _, hs, _, e⟩ | e <;> rw [e]
    · exact (step_out_prefix hs).trans (ih (t.setRc (t.rc + 1)))
    · exact step_out_prefix hs

/-- STEP ends in the state of the step, or is refused and changes nothing (R80, R119). -/
theorem issueStep_cases (s : State) :
    (∃ t, step s = .next t ∧ issueStep s = (t, respond t)) ∨
    (s.mode ≠ .loaded ∧ issueStep s = (s, .refused)) := by
  by_cases hm : s.mode = .loaded
  · obtain ⟨t, hs⟩ := step_next_of_loaded hm
    exact .inl ⟨t, hs, by simp only [issueStep, hs]⟩
  · refine .inr ⟨hm, ?_⟩
    cases hs : step s with
    | next t => exact absurd (loaded_of_step hs) hm
    | fault r => simp only [issueStep, hs]
    | refused r => simp only [issueStep, hs]

/-- RUN is the loop in MODE = Loaded, and is refused and changes nothing elsewhere (R81, R119). -/
theorem issueRun_cases (s : State) :
    (s.mode = .loaded ∧ issueRun s =
      (runLoop s.params.codeCap.val (s.setRc 0), respond (runLoop s.params.codeCap.val (s.setRc 0)))) ∨
    (s.mode ≠ .loaded ∧ issueRun s = (s, .refused)) := by
  cases hm : s.mode with
  | loaded => exact .inl ⟨rfl, by simp only [issueRun, hm]⟩
  | unloaded => exact .inr ⟨by simp, by simp only [issueRun, hm]⟩
  | faulted => exact .inr ⟨by simp, by simp only [issueRun, hm]⟩

/-- LOAD takes a sequence of CODE_CAP records in MODE = Unloaded, and else changes nothing (R119, R122). -/
theorem issueLoad_cases (seq : List Record) (s : State) :
    (s.mode = .unloaded ∧ seq.length = s.params.codeCap.val ∧ issueLoad seq s = (s.setCode seq, .loadOk)) ∨
    (s.mode = .unloaded ∧ seq.length ≠ s.params.codeCap.val ∧ issueLoad seq s = (s, .codeSizeMismatch)) ∨
    (s.mode ≠ .unloaded ∧ issueLoad seq s = (s, .refused)) := by
  cases hm : s.mode with
  | unloaded =>
    by_cases hlen : seq.length = s.params.codeCap.val
    · exact .inl ⟨rfl, hlen, by simp only [issueLoad, hm, if_pos hlen]⟩
    · exact .inr (.inl ⟨rfl, hlen, by simp only [issueLoad, hm, if_neg hlen]⟩)
  | loaded => exact .inr (.inr ⟨by simp, by simp only [issueLoad, hm]⟩)
  | faulted => exact .inr (.inr ⟨by simp, by simp only [issueLoad, hm]⟩)

/-- No command but CONSTRUCT takes a byte back from OUT (R25). -/
theorem issue_out_prefix (c : Command) (s : State) (hc : ∀ p answers, c ≠ .construct p answers) :
    s.out <+: (issue c s).1.out := by
  cases c with
  | construct p answers => exact absurd rfl (hc p answers)
  | load seq =>
    change s.out <+: (issueLoad seq s).1.out
    rcases issueLoad_cases seq s with ⟨_, _, e⟩ | ⟨_, _, e⟩ | ⟨_, e⟩ <;> rw [e]
    exact List.prefix_rfl
  | step =>
    change s.out <+: (issueStep s).1.out
    rcases issueStep_cases s with ⟨t, hs, e⟩ | ⟨_, e⟩ <;> rw [e]
    exact step_out_prefix hs
  | run =>
    change s.out <+: (issueRun s).1.out
    rcases issueRun_cases s with ⟨_, e⟩ | ⟨_, e⟩ <;> rw [e]
    exact runLoop_out_prefix _ (s.setRc 0)
  | read => exact List.prefix_rfl

/-- OUT differs after an instruction exactly when the sink accepted a transfer, which is WRT's (R98, R99). -/
theorem exec_out_changes {i : Instr} {s t : State} (h : exec i s = .next t) :
    (t.out ≠ s.out ↔ t.transfers ≠ s.transfers ∧ sinkAnswer s = .accept) ∧
    (t.out ≠ s.out → i.mnemonic = .WRT ∧
      t.out = s.out ++ dec (wordAt s (topIndex s).toNat) ++ [0x0A]) := by
  rcases exec_port h with ⟨htr, _, hout⟩ | ⟨hwrt, htr, _, ⟨ha, hout⟩ | ⟨e, ha, hout⟩⟩
  · simp [htr, hout]
  · have hline : t.out = s.out ++ dec (wordAt s (topIndex s).toNat) ++ [0x0A] := by
      rw [hout, ← List.append_assoc]
      rfl
    have hne : t.out ≠ s.out := by simp [hout]
    exact ⟨by simp [hne, htr, ha], fun _ => ⟨hwrt, hline⟩⟩
  · simp [hout, ha]

/-- Settles O26: `exec_port` says what an instruction does to OUT, and steps and commands only run them. -/
theorem outOnlyGrowsAndOnlyByWrt : Obligations.OutOnlyGrowsAndOnlyByWrt := by
  unfold Obligations.OutOnlyGrowsAndOnlyByWrt
  refine ⟨fun p answers => rfl, fun i s t h => ?_, fun s t h => step_out_prefix h, issue_out_prefix⟩
  exact ⟨exec_out_prefix h, exec_out_changes h⟩

end Sys2Proof.Machine
end

section
/-! PROOFS. The machine's invariant: what each update needs to keep it, then instructions, steps, RUN's loop and
commands (R19, R21, R28, R29). -/

namespace Sys2Proof.Safety.MachineInv

open Sys2Proof.Machine

/-- Every constructed machine meets the invariant (R32). -/
theorem construct (p : Params) (answers : List SinkAnswer) : MachineInv (State.construct p answers) where
  memCanonical := Memory.wf_nil _
  spLow := le_refl 0
  spHigh := le_max_left _ _
  faultLatched := by simp [State.construct]
  codeLoaded h := absurd rfl h
  ipRange := .inl rfl
  rcBounded := Nat.zero_le _

variable {s : State} (h : MachineInv s)
include h

theorem setIp {p : Word} (hlow : 1 ≤ p.toInt) (hhigh : p.toInt ≤ codeCap s) : MachineInv (s.setIp p) :=
  { h with ipRange := .inr ⟨hlow, hhigh⟩ }

theorem setSp {p : Word} (hlow : 0 ≤ p.toInt) (hhigh : p.toInt ≤ max 0 (stackCap s - 1)) :
    MachineInv (s.setSp p) :=
  { h with spLow := hlow, spHigh := hhigh }

/-- A word stored inside the array (R39). -/
theorem store {i : Int} (v : Word) (hlow : 0 ≤ i) (hhigh : i < stackCap s) :
    MachineInv (s.setMem (Memory.store s.mem i.toNat v)) :=
  { h with
    memCanonical := Memory.wf_store v h.memCanonical (by
      simp only [stackCap] at hhigh
      simp only [State.setMem_params]
      omega) }

theorem setRc {n : Nat} (hn : n ≤ s.params.codeCap.val) : MachineInv (s.setRc n) :=
  { h with rcBounded := hn }

theorem setOut (bs : List Byte) : MachineInv (s.setOut bs) := { h with }

theorem setAnswered : MachineInv s.setAnswered := { h with }

/-- Fault entry after LOAD (R104). -/
theorem setFault (hm : s.mode ≠ .unloaded) (k : FaultKind) : MachineInv (s.setFault k) :=
  { h with
    faultLatched := by simp
    codeLoaded := fun _ => h.codeLoaded hm }

/-- LOAD of a whole code array (R122). -/
theorem setCode {seq : List Record} (hm : s.mode = .unloaded) (hlen : seq.length = s.params.codeCap.val) :
    MachineInv (s.setCode seq) :=
  { h with
    faultLatched := by
      have hf := h.faultLatched
      simp only [hm, reduceCtorEq, false_iff, not_not] at hf
      simp [hf]
    codeLoaded := fun _ => hlen }

theorem fault_none_of_loaded (hm : s.mode = .loaded) : s.fault = none := by
  by_contra hf
  have := h.faultLatched.mpr hf
  rw [hm] at this
  cases this

/-- An instruction executed after LOAD keeps the invariant: its writes are inside the array, and SP moves by one
away from the end it has been checked against (R38 to R41). -/
theorem exec (hm : s.mode ≠ .unloaded) {i : Instr} {t : State} (he : exec i s = .next t) : MachineInv t := by
  have hlow := h.spLow
  have hhigh := h.spHigh
  cases exec_effect he with
  | raise k _ eq =>
    subst eq
    exact h.setFault hm k
  | ceiling v _ inside _ eq =>
    subst eq
    exact (h.store v inside.1 inside.2).setFault hm _
  | pushed v p _ inside room up eq =>
    subst eq
    exact (h.store v inside (by simp only [pushIndex]; omega)).setSp (by omega)
      (by simp only [stackCap_setMem]; omega)
  | stored j v p who inside _ down eq =>
    subst eq
    have hone : 1 ≤ s.sp.toInt := by
      rcases who with ⟨_, _, _, hone⟩ | ⟨_, _, htwo⟩ <;> omega
    exact (h.store v inside.1 inside.2).setSp (by omega) (by simp only [stackCap_setMem]; omega)
  | emitted p _ depth down _ eq =>
    subst eq
    exact (h.setSp (by omega) (by omega)).setAnswered.setOut _
  | sinkFailed p e _ depth down _ eq =>
    subst eq
    exact (h.setSp (p := p) (by omega) (by omega)).setAnswered.setFault hm _

theorem step {t : State} (hs : step s = .next t) : MachineInv t := by
  have hm : s.mode ≠ .unloaded := by simp [loaded_of_step hs]
  rcases step_next_cases hs with rfl | ⟨hlow, hhigh, i, p, hp, he⟩
  · exact h.setFault hm _
  · have hip : MachineInv (s.setIp p) := h.setIp (by omega) (by omega)
    exact hip.exec hm he

/-- The loop keeps the invariant while RC leaves room for its n turns (R29, R81). -/
theorem runLoop {n : Nat} (hroom : s.rc + n ≤ s.params.codeCap.val) : MachineInv (runLoop n s) := by
  induction n generalizing s with
  | zero => exact h
  | succ n ih =>
    rcases runLoop_succ_cases n s with ⟨t, hs, _, e⟩ | ⟨t, _, hs, _, e⟩ | e <;> rw [e]
    · obtain ⟨hparams, _, hrc⟩ := step_frame hs
      rw [← hparams, ← hrc] at hroom
      refine ih ((h.step hs).setRc (by omega)) ?_
      simp only [State.setRc_rc, State.setRc_params]
      omega
    · exact h.step hs
    · exact h

theorem issue (c : Command) : MachineInv (issue c s).1 := by
  cases c with
  | construct p answers => exact construct p answers
  | load seq =>
    change MachineInv (issueLoad seq s).1
    rcases issueLoad_cases seq s with ⟨hm, hlen, e⟩ | ⟨_, _, e⟩ | ⟨_, e⟩ <;> rw [e]
    · exact h.setCode hm hlen
    · exact h
    · exact h
  | step =>
    change MachineInv (issueStep s).1
    rcases issueStep_cases s with ⟨t, hs, e⟩ | ⟨_, e⟩ <;> rw [e]
    · exact h.step hs
    · exact h
  | run =>
    change MachineInv (issueRun s).1
    rcases issueRun_cases s with ⟨_, e⟩ | ⟨_, e⟩ <;> rw [e]
    · exact (h.setRc (Nat.zero_le _)).runLoop (by simp)
    · exact h
  | read => exact h

end Sys2Proof.Safety.MachineInv

namespace Sys2Proof.Safety

open Sys2Proof.Machine

/-- Settles O40: the reset state is a constructed machine. -/
theorem invariantAtReset : Obligations.InvariantAtReset := by
  unfold Obligations.InvariantAtReset
  exact ⟨MachineInv.construct _ _, MachineInv.construct⟩

/-- Settles O41: a step raises at fetch, or runs one instruction with IP in 1 to CODE_CAP. -/
theorem invariantKeptByStep : Obligations.InvariantKeptByStep := by
  unfold Obligations.InvariantKeptByStep
  intro s t h hs
  exact h.step hs

/-- Settles O42: command by command, RUN by induction over its loop. -/
theorem invariantKeptByCommands : Obligations.InvariantKeptByCommands := by
  unfold Obligations.InvariantKeptByCommands
  intro c s h
  exact h.issue c

/-- Settles O38: a step starts in MODE = Loaded, where the invariant has FAULT none. -/
theorem stepCompletesOrFaults : Obligations.StepCompletesOrFaults := by
  unfold Obligations.StepCompletesOrFaults
  intro s t h hs
  exact step_latch (h.fault_none_of_loaded (loaded_of_step hs)) hs

end Sys2Proof.Safety
end

section
/-! PROOFS. The machine after CONSTRUCT, the refused commands, and READ (R32, R33, R119). -/

namespace Sys2Proof.Machine

/-- Settles O43, field by field; nothing has been written, so every word is MEM_INIT's (R46). -/
theorem constructSetsResetValues : Obligations.ConstructSetsResetValues := by
  unfold Obligations.ConstructSetsResetValues
  intro c p answers t r h
  cases h
  exact ⟨rfl, rfl, rfl, rfl, rfl, rfl, rfl, rfl, rfl, fun i => rfl⟩

/-- Settles O45: each command by its own case lemma, READ by `observe`. -/
theorem commandsRefusedOutsideTheirMode : Obligations.CommandsRefusedOutsideTheirMode := by
  unfold Obligations.CommandsRefusedOutsideTheirMode
  intro s seq
  refine ⟨fun hm => ⟨?_, ?_⟩, fun hm => ?_, observe s, rfl, rfl, rfl, rfl, rfl, rfl, ?_, fun i hi => ?_⟩
  · rcases issueStep_cases s with ⟨t, hs, _⟩ | ⟨_, e⟩
    · exact absurd (loaded_of_step hs) hm
    · exact e
  · rcases issueRun_cases s with ⟨hl, _⟩ | ⟨_, e⟩
    · exact absurd hl hm
    · exact e
  · rcases issueLoad_cases seq s with ⟨hu, _⟩ | ⟨hu, _⟩ | ⟨_, e⟩
    · exact absurd hu hm
    · exact absurd hu hm
    · exact e
  · simp [observe]
  · simp [observe]

end Sys2Proof.Machine
end

section
/-! PROOFS. A cycle does the same whatever RC holds. RUN clears RC and counts in it (R81), so its loop is compared
with clean steps from the state before (R82). -/

namespace Sys2Proof.Machine

open Sys2Proof.Safety

/-- f changes only what the execute stage neither reads nor writes. -/
structure ExecIgnores (f : State → State) : Prop where
  params : ∀ s, (f s).params = s.params
  sp : ∀ s, (f s).sp = s.sp
  mem : ∀ s, (f s).mem = s.mem
  out : ∀ s, (f s).out = s.out
  sinkAnswers : ∀ s, (f s).sinkAnswers = s.sinkAnswers
  transfers : ∀ s, (f s).transfers = s.transfers
  setSp : ∀ s v, (f s).setSp v = f (s.setSp v)
  setMem : ∀ s m, (f s).setMem m = f (s.setMem m)
  setOut : ∀ s bs, (f s).setOut bs = f (s.setOut bs)
  setAnswered : ∀ s, (f s).setAnswered = f s.setAnswered
  setFault : ∀ s k, (f s).setFault k = f (s.setFault k)

/-- f on the state a result hands on. -/
def Res.mapState {α : Type} (f : State → State) : Res α → Res α
  | .ok a s => .ok a (f s)
  | .raised k s => .raised k (f s)

/-- f on the next state of an outcome. -/
def mapNext (f : State → State) : Host.Outcome State Fault Refusal → Host.Outcome State Fault Refusal
  | .next s => .next (f s)
  | .fault r => .fault r
  | .refused r => .refused r

theorem andThen_mapState {α β : Type} {f : State → State} {r : Res α} {g : α → State → Res β}
    (hg : ∀ a s, g a (f s) = (g a s).mapState f) :
    andThen (r.mapState f) g = (andThen r g).mapState f := by
  cases r with
  | ok a s => exact hg a s
  | raised k s => rfl

theorem ofAlu_mapState (f : State → State) (r : Except FaultKind Word) (s : State) :
    ofAlu r (f s) = (ofAlu r s).mapState f := by
  cases r <;> rfl

namespace ExecIgnores

variable {f : State → State} (hf : ExecIgnores f)
include hf

theorem stackCap (s : State) : stackCap (f s) = stackCap s := by
  simp only [Machine.stackCap, hf.params]

theorem wordAt (s : State) (j : Nat) : wordAt (f s) j = wordAt s j := by
  simp only [Machine.wordAt, hf.mem]

theorem pushIndex (s : State) : pushIndex (f s) = pushIndex s := by
  simp only [Machine.pushIndex, hf.sp]

theorem topIndex (s : State) : topIndex (f s) = topIndex s := by
  simp only [Machine.topIndex, hf.sp]

theorem secondIndex (s : State) : secondIndex (f s) = secondIndex s := by
  simp only [Machine.secondIndex, hf.sp]

theorem memRead (i : Int) (s : State) : memRead i (f s) = (memRead i s).mapState f := by
  simp only [Machine.memRead, OutOfBounds, hf.stackCap, hf.wordAt]
  split <;> rfl

theorem memWrite (i : Int) (v : Word) (s : State) : memWrite i v (f s) = (memWrite i v s).mapState f := by
  simp only [Machine.memWrite, OutOfBounds, hf.stackCap, hf.mem, hf.setMem]
  split <;> rfl

theorem incSP (s : State) : incSP (f s) = (incSP s).mapState f := by
  simp only [Machine.incSP, hf.stackCap, hf.sp, hf.setSp]
  split <;> rfl

theorem decSP (s : State) : decSP (f s) = (decSP s).mapState f := by
  simp only [Machine.decSP, hf.sp, hf.setSp]
  split <;> rfl

theorem push (v : Word) (s : State) : push v (f s) = (push v s).mapState f := by
  rw [Machine.push, hf.pushIndex, hf.memWrite]
  exact andThen_mapState fun _ => hf.incSP

theorem pop (s : State) : pop (f s) = (pop s).mapState f := by
  rw [Machine.pop, hf.topIndex, hf.memRead]
  refine andThen_mapState fun v s => ?_
  rw [hf.decSP]
  exact andThen_mapState fun _ _ => rfl

theorem emit (bs : List Byte) (s : State) : emit bs (f s) = (emit bs s).mapState f := by
  have hanswer : sinkAnswer (f s) = sinkAnswer s := by
    simp only [sinkAnswer, hf.sinkAnswers, hf.transfers]
  simp only [Machine.emit, hanswer, hf.out, hf.setAnswered, hf.setOut]
  split <;> rfl

theorem binOp (op : Word → Word → Except FaultKind Word) (s : State) :
    binOp op (f s) = (binOp op s).mapState f := by
  rw [Machine.binOp, hf.topIndex, hf.memRead]
  refine andThen_mapState fun a s => ?_
  rw [hf.secondIndex, hf.memRead]
  refine andThen_mapState fun b s => ?_
  rw [ofAlu_mapState]
  refine andThen_mapState fun r s => ?_
  rw [hf.secondIndex, hf.memWrite]
  exact andThen_mapState fun _ => hf.decSP

theorem conclude (r : Res Unit) : conclude (r.mapState f) = mapNext f (conclude r) := by
  cases r with
  | ok a s => rfl
  | raised k s => exact congrArg _ (hf.setFault s k)

/-- Every instruction commutes with a change that the execute stage ignores. -/
theorem exec (i : Instr) (s : State) : exec i (f s) = mapNext f (exec i s) := by
  cases i with
  | ill x => exact hf.conclude (.raised _ s)
  | lit x => exact (congrArg Machine.conclude (hf.push x s)).trans (hf.conclude _)
  | lod x =>
    refine Eq.trans (congrArg Machine.conclude ?_) (hf.conclude _)
    rw [hf.memRead]
    exact andThen_mapState hf.push
  | sto x =>
    refine Eq.trans (congrArg Machine.conclude ?_) (hf.conclude _)
    rw [hf.topIndex, hf.memRead]
    refine andThen_mapState fun v s => ?_
    rw [hf.memWrite]
    exact andThen_mapState fun _ => hf.decSP
  | add x | sub x | mul x | div x =>
    exact (congrArg Machine.conclude (hf.binOp _ s)).trans (hf.conclude _)
  | wrt x =>
    refine Eq.trans (congrArg Machine.conclude ?_) (hf.conclude _)
    rw [hf.pop]
    exact andThen_mapState fun v => hf.emit _

end ExecIgnores

/-- No instruction reads or writes RC (R29, R81). -/
theorem execIgnores_setRc (r : Nat) : ExecIgnores (·.setRc r) := by
  constructor <;> intros <;> rfl

/-- Fetch does not read RC. -/
theorem fetch_setRc (s : State) (r : Nat) : fetch (s.setRc r) = (fetch s).mapState (·.setRc r) := by
  have hcode : codeAt (s.setRc r) = codeAt s := rfl
  simp only [fetch, State.setRc_ip, State.setRc_params, codeCap_setRc, hcode]
  split
  · rfl
  · split
    · rfl
    · split <;> rfl

/-- A step does the same whatever RC holds. -/
theorem step_setRc (s : State) (r : Nat) : step (s.setRc r) = mapNext (·.setRc r) (step s) := by
  cases hm : s.mode with
  | loaded =>
    simp only [step, State.setRc_mode, hm, cycle, fetch_setRc]
    cases fetch s with
    | ok i t =>
      simp only [Res.mapState, execute_eq_exec]
      exact (execIgnores_setRc r).exec i.val t
    | raised k t => rfl
  | unloaded => simp only [step, State.setRc_mode, hm, mapNext]
  | faulted => simp only [step, State.setRc_mode, State.setRc_fault, hm, mapNext]

/-- RUN's loop with RC at r: n clean steps that RC counts, or m < n of them and then one that raises (R81,
R82). -/
theorem runLoop_setRc_cases {s : State} (n r : Nat) (hm : s.mode = .loaded) (hf : s.fault = none) :
    (∃ u, cleanSteps n s = some u ∧ u.mode = .loaded ∧ u.fault = none ∧
      runLoop n (s.setRc r) = u.setRc (r + n)) ∨
    (∃ m u v k, m < n ∧ cleanSteps m s = some u ∧ step u = .next v ∧ v.mode = .faulted ∧ v.fault = some k ∧
      runLoop n (s.setRc r) = v.setRc (r + m)) := by
  induction n generalizing s r with
  | zero => exact .inl ⟨s, rfl, hm, hf, rfl⟩
  | succ n ih =>
    obtain ⟨t, hs⟩ := step_next_of_loaded hm
    have hs' : step (s.setRc r) = .next (t.setRc r) := by rw [step_setRc, hs]; rfl
    rcases step_latch hf hs with ⟨hm', hf'⟩ | ⟨hm', k, hk⟩
    · rw [cleanSteps_succ n hs hf', runLoop_clean n hs' hf']
      rcases ih (r + 1) hm' hf' with ⟨u, hu, hum, huf, e⟩ | ⟨m, u, v, k, hlt, hu, hv, hvm, hvf, e⟩
      · exact .inl ⟨u, hu, hum, huf, e.trans (by rw [Nat.add_right_comm, Nat.add_assoc])⟩
      · exact .inr ⟨m + 1, u, v, k, by omega, (cleanSteps_succ m hs hf').trans hu, hv, hvm, hvf,
          e.trans (by rw [Nat.add_right_comm, Nat.add_assoc])⟩
    · exact .inr ⟨0, s, t, k, by omega, rfl, hs, hm', hk, runLoop_faulted n hs' hk⟩

/-- Settles O46, by induction over RUN's loop (`runLoop_setRc_cases`). -/
theorem runCompletesOrFaults : Obligations.RunCompletesOrFaults := by
  unfold Obligations.RunCompletesOrFaults
  intro s h hm
  obtain ⟨_, hrun⟩ := (issueRun_cases s).resolve_right fun hrefused => hrefused.1 hm
  rcases runLoop_setRc_cases s.params.codeCap.val 0 hm (h.fault_none_of_loaded hm) with
    ⟨u, hu, hum, huf, e⟩ | ⟨m, u, v, k, hlt, hu, hv, hvm, hvf, e⟩ <;>
    rw [e, Nat.zero_add] at hrun
  · have hresp : respond (u.setRc s.params.codeCap.val) = .completed := by simp [respond, huf]
    exact .inl ⟨u.setRc s.params.codeCap.val, hrun.trans (by rw [hresp]), rfl, huf, hum, u, hu, rfl⟩
  · have hresp : respond (v.setRc m) = .faulted k := by simp [respond, hvf]
    exact .inr ⟨v.setRc m, k, hrun.trans (by rw [hresp]), hvf, hvm, hlt, u, v, hu, hv, rfl⟩

end Sys2Proof.Machine
end

section
/-! PROOFS. The bounds checker, the stack primitives, the pushes of LIT and LOD, and the one word of memory that an
instruction can change (R37 to R42, R86 to R88). -/

namespace Sys2Proof.Machine

/-! ## The bounds checker and the stack primitives -/

/-- Settles O6: the two outcomes of `memRead_cases` exclude each other. -/
theorem memReadChecksBounds : Obligations.MemReadChecksBounds := by
  unfold Obligations.MemReadChecksBounds
  intro s i
  rcases memRead_cases i s with ⟨hout, e⟩ | ⟨hlow, hhigh, e⟩
  · exact ⟨fun _ => e, fun _ _ => by omega⟩
  · exact ⟨fun _ => by omega, fun _ _ => e⟩

/-- Settles O7: the two outcomes of `memWrite_cases` exclude each other, and the array written in range reads by
`Memory.word_store_toNat`. -/
theorem memWriteStoresOneWord : Obligations.MemWriteStoresOneWord := by
  unfold Obligations.MemWriteStoresOneWord
  intro s i v
  rcases memWrite_cases i v s with ⟨hout, e⟩ | ⟨hlow, hhigh, e⟩
  · exact ⟨fun _ => e, fun _ _ => by omega⟩
  · exact ⟨fun _ => by omega, fun _ _ => ⟨_, e, Memory.word_store_toNat s.mem hlow v⟩⟩

/-- Settles O8: each primitive raises on one side of its bound and moves SP on the other. -/
theorem stackPointerPrimitives : Obligations.StackPointerPrimitives := by
  unfold Obligations.StackPointerPrimitives
  intro s
  refine ⟨fun hceil => ?_, fun hroom => ?_, fun hfloor => ?_, fun hpos => ?_⟩
  · exact ((incSP_cases s).resolve_right fun ⟨hroom, _⟩ => not_le.mpr hroom hceil).2
  · exact ((incSP_cases s).resolve_left fun ⟨hceil, _⟩ => not_le.mpr hroom hceil).2
  · exact ((decSP_cases s).resolve_right fun ⟨hpos, _⟩ => not_le.mpr hpos hfloor).2
  · exact ((decSP_cases s).resolve_left fun ⟨hfloor, _⟩ => not_le.mpr hpos hfloor).2

/-! ## LIT and LOD -/

/-- R86, the completing case. -/
theorem execLit_of_room {s : State} (x : Word) (hlow : 0 ≤ s.sp.toInt) (hroom : s.sp.toInt < stackCap s - 1) :
    ∃ m p, execLit x s = .next { s with mem := m, sp := p } ∧ p.toInt = s.sp.toInt + 1 ∧
      ∀ j : Nat, Memory.word m j = if (j : Int) = pushIndex s then x else wordAt s j := by
  rcases execLit_cases x s with ⟨hout, _⟩ | ⟨_, _, hceil, _⟩ | ⟨hslot, _, p, hp, e⟩
  · simp only [OutOfBounds, pushIndex] at hout
    omega
  · omega
  · exact ⟨_, p, e, hp, Memory.word_store_toNat s.mem hslot x⟩

/-- R86 at the ceiling: StackOverflow, and at most the sentinel slot has changed (R40). -/
theorem execLit_at_ceiling {s : State} (x : Word) (hcap : 1 ≤ stackCap s) (hsp : s.sp.toInt = stackCap s - 1) :
    ∃ m, execLit x s = .next { s with mem := m, fault := some .stackOverflow, mode := .faulted } ∧
      ∀ j : Nat, (j : Int) ≠ stackCap s - 1 → Memory.word m j = wordAt s j := by
  rcases execLit_cases x s with ⟨hout, _⟩ | ⟨hslot, _, _, e⟩ | ⟨_, hroom, _⟩
  · simp only [OutOfBounds, pushIndex] at hout
    omega
  · refine ⟨_, e, fun j hj => ?_⟩
    have hne : (j : Int) ≠ pushIndex s := fun hjsp => hj (hjsp.trans hsp)
    exact (Memory.word_store_toNat s.mem hslot x j).trans (if_neg hne)
  · omega

/-- R87: with X in range, LOD is LIT of the word read. -/
theorem execLod_of_inside {s : State} {x : Word} (hlow : 0 ≤ dataIndex x) (hhigh : dataIndex x < stackCap s) :
    execLod x s = execLit (wordAt s (dataIndex x).toNat) s := by
  rcases execLod_cases x s with ⟨hout, _⟩ | ⟨_, _, e⟩
  · simp only [OutOfBounds] at hout
    omega
  · exact e

/-- Settles O9 (`execLit_of_room`). -/
theorem litPushesItsLiteral : Obligations.LitPushesItsLiteral := by
  unfold Obligations.LitPushesItsLiteral
  intro s x hlow hroom
  exact execLit_of_room x hlow hroom

/-- Settles O10: LOD in range pushes as LIT does. -/
theorem lodPushesTheWordAtX : Obligations.LodPushesTheWordAtX := by
  unfold Obligations.LodPushesTheWordAtX
  intro s x hx hx' hlow hroom
  rw [exec, execLod_of_inside hx hx']
  exact execLit_of_room _ hlow hroom

/-- Settles O19: LOD in range overflows as LIT does. -/
theorem pushAtTheCeilingOverflows : Obligations.PushAtTheCeilingOverflows := by
  unfold Obligations.PushAtTheCeilingOverflows
  intro s x hcap hsp
  refine ⟨execLit_at_ceiling x hcap hsp, fun hx hx' => ?_⟩
  rw [exec, execLod_of_inside hx hx']
  exact execLit_at_ceiling _ hcap hsp

/-! ## Faults of the bounds check -/

/-- Settles O20: of the outcomes of LOD and of STO, only the raise leaves X out of range. -/
theorem operandOutOfRangeIsMemoryError : Obligations.OperandOutOfRangeIsMemoryError := by
  unfold Obligations.OperandOutOfRangeIsMemoryError
  intro s x hout
  constructor
  · rcases execLod_cases x s with ⟨_, e⟩ | ⟨hlow, hhigh, _⟩
    · exact e
    · omega
  · intro _ _
    rcases execSto_cases x s with ⟨_, e⟩ | ⟨_, _, hlow, hhigh, _⟩
    · exact e
    · omega

/-- Settles O25: every effect but a raise that has changed nothing needs an index inside the array. -/
theorem emptyArrayFaultsEveryInstruction : Obligations.EmptyArrayFaultsEveryInstruction := by
  unfold Obligations.EmptyArrayFaultsEveryInstruction
  intro s i hcap
  obtain ⟨t, h⟩ := exec_next i s
  cases exec_effect h with
  | raise k _ eq => exact ⟨k, h.trans (congrArg _ eq)⟩
  | ceiling _ _ inside _ _ | stored _ _ _ _ inside _ _ _ => omega
  | pushed _ _ _ inside room _ _ =>
    simp only [pushIndex] at inside
    omega
  | emitted _ _ depth _ _ _ | sinkFailed _ _ _ depth _ _ _ => omega

/-! ## The frame of memory (R37) -/

/-- The data index an instruction stores to when it stores. -/
def storeIndex (i : Instr) (s : State) : Option Int :=
  match i with
  | .lit _ | .lod _ => some (pushIndex s)
  | .sto x => some (dataIndex x)
  | .add _ | .sub _ | .mul _ | .div _ => some (secondIndex s)
  | .ill _ | .wrt _ => none

theorem storeIndex_of_push {i : Instr} (who : i.mnemonic = .LIT ∨ i.mnemonic = .LOD) (s : State) :
    storeIndex i s = some (pushIndex s) := by
  cases i with
  | lit x | lod x => rfl
  | _ => simp [Instr.mnemonic] at who

theorem storeIndex_of_arithmetic {i : Instr} (who : i.mnemonic ∈ [Mnemonic.ADD, .SUB, .MUL, .DIV]) (s : State) :
    storeIndex i s = some (secondIndex s) := by
  cases i with
  | add x | sub x | mul x | div x => rfl
  | _ => simp [Instr.mnemonic] at who

/-- An instruction leaves the array as it was, or stores one word, at its own index. -/
theorem exec_mem_cases {i : Instr} {s t : State} (h : exec i s = .next t) :
    t.mem = s.mem ∨
    ∃ k v, storeIndex i s = some k ∧ 0 ≤ k ∧ t.mem = Memory.store s.mem k.toNat v := by
  cases exec_effect h with
  | raise _ _ eq | emitted _ _ _ _ _ eq | sinkFailed _ _ _ _ _ _ eq =>
    subst eq
    exact .inl rfl
  | ceiling v who inside _ eq =>
    subst eq
    exact .inr ⟨_, v, storeIndex_of_push who s, inside.1, rfl⟩
  | pushed v _ who inside _ _ eq =>
    subst eq
    exact .inr ⟨_, v, storeIndex_of_push who s, inside, rfl⟩
  | stored k v _ who inside _ _ eq =>
    subst eq
    refine .inr ⟨k, v, ?_, inside.1, rfl⟩
    rcases who with ⟨x, rfl, rfl, _⟩ | ⟨who, rfl, _⟩
    · rfl
    · exact storeIndex_of_arithmetic who s

/-- A word that the instruction does not store to reads as before. -/
theorem exec_wordAt_of_ne_storeIndex {i : Instr} {s t : State} (h : exec i s = .next t) {j : Nat}
    (hj : storeIndex i s ≠ some (j : Int)) : wordAt t j = wordAt s j := by
  rcases exec_mem_cases h with hmem | ⟨k, v, hk, hlow, hmem⟩ <;> rw [wordAt, hmem]
  · rfl
  · have hne : (j : Int) ≠ k := fun hjk => hj (hjk ▸ hk)
    rw [Memory.word_store_toNat _ hlow, if_neg hne, wordAt]

/-- Settles O28: the statement's match is `storeIndex`, constructor by constructor. -/
theorem memoryFrame : Obligations.MemoryFrame := by
  unfold Obligations.MemoryFrame
  intro i s t h j hj
  refine exec_wordAt_of_ne_storeIndex h fun hstore => ?_
  cases i with
  | lit _ | lod _ | sto _ | add _ | sub _ | mul _ | div _ => exact hj (Option.some.inj hstore).symm
  | ill _ | wrt _ => cases hstore

end Sys2Proof.Machine
end

section
/-! PROOFS. Records and instructions: the opcode map, the byte order and the opcode table's numbering (R51 to R58,
R76). -/

namespace Sys2Proof

/-! ## Bytes and records (R51) -/

@[simp] theorem length_bytesOfWord (w : Word) : (bytesOfWord w).length = 4 := rfl

/-- What `recordOfBytes` reads as a record is exactly that record's bytes: it loses no bit. -/
theorem recordOfBytes_eq_some_iff {bs rest : List Byte} {r : Record} :
    recordOfBytes bs = some (r, rest) ↔ bs = bytesOfRecord r ++ rest := by
  constructor
  · intro h
    unfold recordOfBytes at h
    split at h
    · cases h
      simp [bytesOfRecord, bytesOfWord_wordOfBytes]
    · cases h
  · rintro rfl
    exact recordOfBytes_of_record r rest

theorem bytesOfWord_inj {v w : Word} (h : bytesOfWord v = bytesOfWord w) : v = w := by
  simp only [bytesOfWord, List.cons.injEq, and_true] at h
  obtain ⟨h0, h1, h2, h3⟩ := h
  rw [← wordOfBytes_of_word v, h0, h1, h2, h3, wordOfBytes_of_word]

/-- A list of bytes as one number, byte k weighing 256^k. -/
def littleEndian (bs : List Byte) : Nat := bs.foldr (fun b n => b.toNat + 256 * n) 0

theorem littleEndian_append (xs ys : List Byte) :
    littleEndian (xs ++ ys) = littleEndian xs + 256 ^ xs.length * littleEndian ys := by
  induction xs with
  | nil => simp [littleEndian]
  | cons b bs ih =>
    simp only [littleEndian, List.cons_append, List.foldr_cons, List.length_cons] at ih ⊢
    rw [ih]
    ring

theorem littleEndian_bytesOfWord (w : Word) : littleEndian (bytesOfWord w) = w.toNat := by
  have hw := w.isLt
  simp only [littleEndian, bytesOfWord, byteOf, List.foldr_cons, List.foldr_nil, BitVec.toNat_ofNat]
  omega

/-- Settles O4: the two words' bytes one after the other, and the table word taken apart again. -/
theorem recordBytesAreTableWord : Obligations.RecordBytesAreTableWord := by
  unfold Obligations.RecordBytesAreTableWord
  intro r
  refine ⟨length_bytesOfRecord r, ?_, ?_⟩
  · change littleEndian (bytesOfWord r.op ++ bytesOfWord r.x) = _
    rw [littleEndian_append, littleEndian_bytesOfWord, littleEndian_bytesOfWord, length_bytesOfWord]
    norm_num
  · have hop := r.op.isLt
    have hx := r.x.isLt
    obtain ⟨op, x⟩ := r
    simp only [Machine.tableRecord, Record.mk.injEq]
    constructor <;> apply BitVec.eq_of_toNat_eq <;> simp only [BitVec.toNat_ofNat] <;> omega

/-! ## The opcode map (R55, R76) -/

theorem decodeRecord_eq_ok_iff {t : TagMap} {r : Record} {i : Instr} :
    decodeRecord t r = .ok i ↔ ∃ m, decodeOp t r.op = some m ∧ i = m.withOperand r.x := by
  unfold decodeRecord
  cases decodeOp t r.op with
  | none => simp
  | some m => simp [eq_comm]

/-- A record whose op is a tag is that opcode with the whole field x, whatever x is (R56, R76). -/
theorem decodeRecord_tag {t : TagMap} (ht : t.injective = true) (m : Mnemonic) (x : Word) :
    decodeRecord t ⟨t.of m, x⟩ = .ok (m.withOperand x) :=
  decodeRecord_eq_ok_iff.mpr ⟨m, decodeOp_of ht m, rfl⟩

theorem decodeRecord_encodeRecord {t : TagMap} (ht : t.injective = true) (i : Instr) :
    decodeRecord t (encodeRecord t i) = .ok i := by
  rw [encodeRecord, decodeRecord_tag ht, withOperand_of_instr]

theorem encodeRecord_of_decodeRecord {t : TagMap} {r : Record} {i : Instr} (h : decodeRecord t r = .ok i) :
    encodeRecord t i = r := by
  obtain ⟨m, hm, rfl⟩ := decodeRecord_eq_ok_iff.mp h
  rw [encodeRecord, withOperand_mnemonic, withOperand_operand, of_decodeOp hm]

/-- An instruction decoded from bytes is that of the record they begin with. -/
theorem decodeBytes_eq_ok_iff {t : TagMap} {bs rest : List Byte} {i : Instr} :
    decodeBytes t bs = .ok (i, rest) ↔ ∃ r, bs = bytesOfRecord r ++ rest ∧ decodeRecord t r = .ok i := by
  constructor
  · intro h
    unfold decodeBytes at h
    split at h
    · cases h
    · next r rest' hrec =>
      split at h
      · next hd =>
        cases h
        exact ⟨r, recordOfBytes_eq_some_iff.mp hrec, hd⟩
      · cases h
  · rintro ⟨r, rfl, hd⟩
    simp only [decodeBytes, recordOfBytes_of_record, hd]

/-- Settles O1: the bytes give the record back, and the record the instruction. -/
theorem decodeOfEncodeIsInstruction : Obligations.DecodeOfEncodeIsInstruction := by
  unfold Obligations.DecodeOfEncodeIsInstruction
  intro t i rest ht
  exact decodeBytes_eq_ok_iff.mpr ⟨encodeRecord t i, rfl, decodeRecord_encodeRecord ht i⟩

/-- Settles O2: the record that the bytes hold is the instruction's. -/
theorem encodeOfDecodeIsBytes : Obligations.EncodeOfDecodeIsBytes := by
  unfold Obligations.EncodeOfDecodeIsBytes
  intro t bs rest i h
  obtain ⟨r, rfl, hd⟩ := decodeBytes_eq_ok_iff.mp h
  rw [encode, encodeRecord_of_decodeRecord hd]

/-! ## LEGAL (R58, R74) -/

@[simp] theorem executable_withOperand (m : Mnemonic) (x : Word) :
    (m.withOperand x).executable = m.executable := by
  rw [Instr.executable, withOperand_mnemonic]

theorem mem_legalOps_iff {t : TagMap} {op : Word} :
    op ∈ legalOps t ↔ ∃ m : Mnemonic, m.executable = true ∧ t.of m = op := by
  constructor
  · intro h
    simp only [legalOps, List.mem_cons, List.not_mem_nil, or_false] at h
    rcases h with rfl | rfl | rfl | rfl | rfl | rfl | rfl | rfl
    exacts [⟨.LIT, rfl, rfl⟩, ⟨.LOD, rfl, rfl⟩, ⟨.STO, rfl, rfl⟩, ⟨.ADD, rfl, rfl⟩, ⟨.SUB, rfl, rfl⟩,
      ⟨.MUL, rfl, rfl⟩, ⟨.DIV, rfl, rfl⟩, ⟨.WRT, rfl, rfl⟩]
  · rintro ⟨m, hm, rfl⟩
    cases m with
    | ILL => cases hm
    | _ => simp [legalOps, TagMap.of]

/-- Fetch lets a record through exactly when its op is in LEGAL. -/
theorem decodes_executable_iff_mem_legalOps {t : TagMap} (ht : t.injective = true) (r : Record) :
    (∃ i, decodeRecord t r = .ok i ∧ i.executable = true) ↔ r.op ∈ legalOps t := by
  rw [mem_legalOps_iff]
  constructor
  · rintro ⟨i, hd, hi⟩
    obtain ⟨m, hm, rfl⟩ := decodeRecord_eq_ok_iff.mp hd
    exact ⟨m, executable_withOperand m r.x ▸ hi, of_decodeOp hm⟩
  · rintro ⟨m, hm, hop⟩
    exact ⟨m.withOperand r.x, decodeRecord_eq_ok_iff.mpr ⟨m, hop ▸ decodeOp_of ht m, rfl⟩,
      (executable_withOperand m r.x).trans hm⟩

/-- Under the default TAG, LEGAL is 1 to 8 (decision D1). -/
theorem mem_legalOps_default_iff (op : Word) :
    op ∈ legalOps TagMap.default ↔ 1 ≤ op.toInt ∧ op.toInt ≤ 8 := by
  constructor
  · intro h
    simp only [legalOps, TagMap.default, List.mem_cons, List.not_mem_nil, or_false] at h
    rcases h with rfl | rfl | rfl | rfl | rfl | rfl | rfl | rfl <;> decide
  · rintro ⟨hlow, hhigh⟩
    have hop : BitVec.ofInt 32 op.toInt = op := BitVec.ofInt_toInt
    generalize op.toInt = v at hlow hhigh hop
    subst hop
    interval_cases v <;> decide

/-- Settles O5. -/
theorem legalOpcodesAreExactlyLegal : Obligations.LegalOpcodesAreExactlyLegal := by
  unfold Obligations.LegalOpcodesAreExactlyLegal
  exact ⟨fun _ r ht => decodes_executable_iff_mem_legalOps ht r, mem_legalOps_default_iff⟩

/-- Settles O3: each of the seven words is run through the decoder. -/
theorem specWordsDecode : Obligations.SpecWordsDecode := by
  unfold Obligations.SpecWordsDecode
  decide

end Sys2Proof
end

section
/-! PROOFS. The program container: the four header words and the records after them (R61 to R66). -/

namespace Sys2Proof.Machine

/-! ## The records (R61) -/

theorem length_flatMap_bytesOfRecord (seq : List Record) :
    (seq.flatMap bytesOfRecord).length = 8 * seq.length := by
  simp [List.length_flatMap, mul_comm]

/-- Reading n records succeeds exactly on their bytes, whatever follows. -/
theorem readRecords_eq_ok_iff {n : Nat} {bs : List Byte} {seq : List Record} :
    readRecords n bs = .ok seq ↔ seq.length = n ∧ ∃ rest, bs = seq.flatMap bytesOfRecord ++ rest := by
  induction n generalizing bs seq with
  | zero =>
    simp only [readRecords, Except.ok.injEq, List.length_eq_zero_iff]
    constructor
    · rintro rfl
      exact ⟨rfl, bs, rfl⟩
    · rintro ⟨rfl, _⟩
      rfl
  | succ n ih =>
    constructor
    · intro h
      unfold readRecords at h
      split at h
      · cases h
      · next r tail hrec =>
        split at h
        · next rs hrs =>
          cases h
          obtain ⟨hlen, rest, rfl⟩ := ih.mp hrs
          rw [recordOfBytes_eq_some_iff.mp hrec]
          exact ⟨by simp [hlen], rest, by simp⟩
        · cases h
    · rintro ⟨hlen, rest, rfl⟩
      cases seq with
      | nil => cases hlen
      | cons r rs =>
        have hrs : readRecords n (rs.flatMap bytesOfRecord ++ rest) = .ok rs :=
          ih.mpr ⟨Nat.succ.inj hlen, rest, rfl⟩
        simp only [List.flatMap_cons, List.append_assoc, readRecords, recordOfBytes_of_record, hrs]

/-- Reading records fails with ReadError alone (R61). -/
theorem readRecords_cases (n : Nat) (bs : List Byte) :
    (∃ seq, readRecords n bs = .ok seq) ∨ readRecords n bs = .error .readError := by
  induction n generalizing bs with
  | zero => exact .inl ⟨[], rfl⟩
  | succ n ih =>
    unfold readRecords
    split
    · exact .inr rfl
    · next r rest _ =>
      rcases ih rest with ⟨rs, hrs⟩ | hrs <;> rw [hrs]
      · exact .inl ⟨r :: rs, rfl⟩
      · exact .inr rfl

theorem readRecords_of_short {n : Nat} {bs : List Byte} (h : bs.length < 8 * n) :
    readRecords n bs = .error .readError := by
  refine (readRecords_cases n bs).resolve_left ?_
  rintro ⟨seq, hseq⟩
  obtain ⟨rfl, rest, rfl⟩ := readRecords_eq_ok_iff.mp hseq
  rw [List.length_append, length_flatMap_bytesOfRecord] at h
  omega

theorem exists_record_of_length {bs : List Byte} (h : 8 ≤ bs.length) :
    ∃ r rest, bs = bytesOfRecord r ++ rest := by
  match bs, h with
  | b0 :: b1 :: b2 :: b3 :: b4 :: b5 :: b6 :: b7 :: rest, _ =>
    exact ⟨⟨wordOfBytes b0 b1 b2 b3, wordOfBytes b4 b5 b6 b7⟩, rest, recordOfBytes_eq_some_iff.mp rfl⟩

theorem exists_readRecords_of_length {n : Nat} {bs : List Byte} (h : 8 * n ≤ bs.length) :
    ∃ seq, readRecords n bs = .ok seq := by
  induction n generalizing bs with
  | zero => exact ⟨[], rfl⟩
  | succ n ih =>
    obtain ⟨r, rest, rfl⟩ := exists_record_of_length (bs := bs) (by omega)
    rw [List.length_append, length_bytesOfRecord] at h
    obtain ⟨rs, hrs⟩ := ih (bs := rest) (by omega)
    exact ⟨r :: rs, by simp only [readRecords, recordOfBytes_of_record, hrs]⟩

/-- Nothing beyond the 8*n bytes of n records is read (R61). -/
theorem readRecords_take_append {n : Nat} {bs : List Byte} (h : 8 * n ≤ bs.length) (tail : List Byte) :
    readRecords n (bs.take (8 * n) ++ tail) = readRecords n bs := by
  obtain ⟨seq, hseq⟩ := exists_readRecords_of_length h
  obtain ⟨hlen, rest, rfl⟩ := readRecords_eq_ok_iff.mp hseq
  have htake : (seq.flatMap bytesOfRecord ++ rest).take (8 * n) = seq.flatMap bytesOfRecord :=
    List.take_left' (by rw [length_flatMap_bytesOfRecord, hlen])
  rw [hseq, htake]
  exact readRecords_eq_ok_iff.mpr ⟨hlen, tail, rfl⟩

/-! ## The header (R60, R61) -/

/-- The four bytes of a signature. -/
def Magic.bytes (magic : Magic) : List Byte := [magic.m0, magic.m1, magic.m2, magic.m3]

@[simp] theorem length_magicBytes (magic : Magic) : magic.bytes.length = 4 := rfl

theorem magicBytes_inj {a b : Magic} : a.bytes = b.bytes ↔ a = b := by
  obtain ⟨a0, a1, a2, a3⟩ := a
  obtain ⟨b0, b1, b2, b3⟩ := b
  simp [Magic.bytes]

/-- A byte string with a whole header, by its fields: signature, version, count and entry point, and the bytes
after them (R60). -/
def containerBytes (sig : Magic) (version count entry : Word) (body : List Byte) : List Byte :=
  sig.bytes ++ (bytesOfWord version ++ (bytesOfWord count ++ (bytesOfWord entry ++ body)))

theorem exists_containerBytes_of_length {bs : List Byte} (h : 16 ≤ bs.length) :
    ∃ sig version count entry body, bs = containerBytes sig version count entry body := by
  match bs, h with
  | a0 :: a1 :: a2 :: a3 :: v0 :: v1 :: v2 :: v3 :: n0 :: n1 :: n2 :: n3 :: e0 :: e1 :: e2 :: e3 :: body, _ =>
    refine ⟨⟨a0, a1, a2, a3⟩, wordOfBytes v0 v1 v2 v3, wordOfBytes n0 n1 n2 n3, wordOfBytes e0 e1 e2 e3, body, ?_⟩
    simp only [containerBytes, bytesOfWord_wordOfBytes]
    rfl

section Fields

variable (sig : Magic) (version count entry : Word) (body : List Byte)

theorem length_containerBytes :
    (containerBytes sig version count entry body).length = 16 + body.length := by
  simp only [containerBytes, List.length_append, length_magicBytes, length_bytesOfWord]
  omega

theorem take_signature : (containerBytes sig version count entry body).take 4 = sig.bytes := rfl

theorem take_version :
    ((containerBytes sig version count entry body).drop 4).take 4 = bytesOfWord version := rfl

theorem take_count : ((containerBytes sig version count entry body).drop 8).take 4 = bytesOfWord count := rfl

theorem take_header_append (k : Nat) (tail : List Byte) :
    (containerBytes sig version count entry body).take (16 + k) ++ tail =
      containerBytes sig version count entry (body.take k ++ tail) := by
  rw [Nat.add_comm]
  rfl

/-- R61 on a whole header: signature, version, the sign of the count, then the records. -/
theorem decodeContainer_containerBytes (magic : Magic) :
    decodeContainer magic (containerBytes sig version count entry body) =
      if sig ≠ magic then .error .signatureMismatch
      else if version ≠ 1 then .error .versionMismatch
      else if count.toInt < 0 then .error .readError
      else (readRecords count.toInt.toNat body).map (·, entry) := by
  obtain ⟨m0, m1, m2, m3⟩ := sig
  simp only [containerBytes, Magic.bytes, bytesOfWord, List.cons_append, List.nil_append, decodeContainer,
    wordOfBytes_of_word]
  cases readRecords count.toInt.toNat body <;> rfl

end Fields

/-- R61 on a header short of 16 bytes (decision D17). -/
theorem decodeContainer_of_short (magic : Magic) {bs : List Byte} (h : bs.length < 16) :
    decodeContainer magic bs = .error .readError := by
  unfold decodeContainer
  split
  · simp only [List.length_cons] at h
    omega
  · rfl

/-- What decodes is a whole header of the right signature and version, and as many records as it counts. -/
theorem decodeContainer_eq_ok {magic : Magic} {bs : List Byte} {seq : List Record} {e : Word}
    (h : decodeContainer magic bs = .ok (seq, e)) :
    ∃ count body, bs = containerBytes magic 1 count e body ∧ 0 ≤ count.toInt ∧
      readRecords count.toInt.toNat body = .ok seq := by
  by_cases hlen : bs.length < 16
  · rw [decodeContainer_of_short magic hlen] at h
    cases h
  obtain ⟨sig, version, count, entry, body, rfl⟩ := exists_containerBytes_of_length (not_lt.mp hlen)
  rw [decodeContainer_containerBytes] at h
  split_ifs at h with hsig hversion hcount
  rcases readRecords_cases count.toInt.toNat body with ⟨rs, hrs⟩ | hrs <;> rw [hrs] at h <;> cases h
  exact ⟨count, body, by rw [not_not.mp hsig, not_not.mp hversion], not_lt.mp hcount, hrs⟩

theorem length_of_decodeContainer {magic : Magic} {sig : Magic} {version count entry : Word} {body : List Byte}
    {seq : List Record} {e : Word}
    (h : decodeContainer magic (containerBytes sig version count entry body) = .ok (seq, e)) :
    (seq.length : Int) = count.toInt := by
  obtain ⟨count', body', heq, hcount, hseq⟩ := decodeContainer_eq_ok h
  have hsame : count = count' := bytesOfWord_inj (by
    rw [← take_count sig version count entry body, heq, take_count])
  obtain ⟨hlen, _⟩ := readRecords_eq_ok_iff.mp hseq
  subst hsame
  omega

/-! ## Encode (R64) -/

theorem encodeContainer_eq (magic : Magic) (seq : List Record) (e : Word) :
    encodeContainer magic seq e = containerBytes magic 1 (countWord seq) e (seq.flatMap bytesOfRecord) := by
  simp only [encodeContainer, containerBytes, Magic.bytes, List.append_assoc]

theorem length_encodeContainer (magic : Magic) (seq : List Record) (e : Word) :
    (encodeContainer magic seq e).length = 16 + 8 * seq.length := by
  rw [encodeContainer_eq, length_containerBytes, length_flatMap_bytesOfRecord]

theorem toInt_countWord {seq : List Record} (h : fitsCount seq = true) :
    (countWord seq).toInt = seq.length := by
  have hlen : seq.length < 2147483648 := of_decide_eq_true h
  rw [countWord_of_fits h, ← BitVec.ofInt_natCast, toInt_ofInt32]
  simp only [intMin, intMax]
  omega

/-! ## The obligations -/

/-- Settles O49: the header's fields come back, and the records by `readRecords_eq_ok_iff`. -/
theorem containerRoundTrip : Obligations.ContainerRoundTrip := by
  unfold Obligations.ContainerRoundTrip
  intro magic seq e hfits
  have hrecords : readRecords seq.length (seq.flatMap bytesOfRecord) = .ok seq :=
    readRecords_eq_ok_iff.mpr ⟨rfl, [], (List.append_nil _).symm⟩
  have hcount : ¬ (seq.length : Int) < 0 := by omega
  rw [encodeContainer_eq, decodeContainer_containerBytes, toInt_countWord hfits, Int.toNat_natCast, hrecords,
    if_neg (not_not.mpr rfl), if_neg (not_not.mpr rfl), if_neg hcount]
  rfl

/-- Settles O50: the header is read from the first 16 bytes, the records from the 8*n after them. -/
theorem containerReadsNoFurther : Obligations.ContainerReadsNoFurther := by
  unfold Obligations.ContainerReadsNoFurther
  intro magic bs tail n hheader hcount hlen
  obtain ⟨sig, version, count, entry, body, rfl⟩ := exists_containerBytes_of_length hheader
  obtain rfl : count = n := bytesOfWord_inj hcount
  rw [length_containerBytes] at hlen
  refine ⟨?_, fun seq e h => length_of_decodeContainer h⟩
  rw [take_header_append, decodeContainer_containerBytes, decodeContainer_containerBytes,
    readRecords_take_append (by omega)]

/-- Settles O51: each error is the first test of R61 that fails. -/
theorem containerErrorsInOrder : Obligations.ContainerErrorsInOrder := by
  unfold Obligations.ContainerErrorsInOrder
  intro magic bs
  by_cases hshort : bs.length < 16
  · exact ⟨fun _ => decodeContainer_of_short magic hshort, fun _ => by omega, fun _ => by omega,
      fun _ _ => by omega⟩
  obtain ⟨sig, version, count, entry, body, rfl⟩ := exists_containerBytes_of_length (not_lt.mp hshort)
  have hsig : sig.bytes = [magic.m0, magic.m1, magic.m2, magic.m3] ↔ sig = magic := magicBytes_inj
  rw [take_signature, take_version, take_count, decodeContainer_containerBytes, length_containerBytes]
  refine ⟨fun _ => by omega, fun _ hne => if_pos (mt hsig.mpr hne), fun _ heq hne => ?_,
    fun n _ heq hone hn hbad => ?_⟩
  · rw [if_neg (not_not.mpr (hsig.mp heq)), if_pos (mt (congrArg bytesOfWord) hne)]
  · obtain rfl := bytesOfWord_inj hn
    rw [if_neg (not_not.mpr (hsig.mp heq)), if_neg (not_not.mpr (bytesOfWord_inj hone))]
    split_ifs with hneg
    · rfl
    · rw [readRecords_of_short (by omega)]
      rfl

/-- Settles O52: Encode's bytes are counted by `length_encodeContainer`. -/
theorem containerLengthIsExact : Obligations.ContainerLengthIsExact := by
  unfold Obligations.ContainerLengthIsExact
  intro magic seq e
  refine ⟨⟨_, rfl, length_encodeContainer magic seq e⟩, fun room hroom => ?_⟩
  rw [← length_encodeContainer magic seq e] at hroom
  exact if_neg (not_le.mpr hroom)

/-- LOAD right after CONSTRUCT takes a sequence of CODE_CAP records (R122). -/
theorem issueLoad_construct {p : Params} {seq : List Record} (answers : List SinkAnswer)
    (h : seq.length = p.codeCap.val) :
    issueLoad seq (State.construct p answers) = ((State.construct p answers).setCode seq, .loadOk) :=
  if_pos h

/-- Settles O53: the count of what decodes is a capacity, so LOAD finds the length it was constructed for. -/
theorem bootLoadsTheContainer : Obligations.BootLoadsTheContainer := by
  unfold Obligations.BootLoadsTheContainer
  intro magic cap tag answers bs seq e h
  obtain ⟨count, body, rfl, _, hseq⟩ := decodeContainer_eq_ok h
  obtain ⟨hlen, _⟩ := readRecords_eq_ok_iff.mp hseq
  have hmax : count.toInt ≤ intMax := (toInt_range count).2
  simp only [intMax] at hmax
  have hcap : (Fin.ofNat 2147483648 seq.length).val = seq.length :=
    Nat.mod_eq_of_lt (by omega)
  refine ⟨(State.construct ⟨cap, Fin.ofNat 2147483648 seq.length, e, tag⟩ answers).setCode seq,
    ?_, rfl, rfl, rfl, congrArg Nat.cast hcap, rfl, rfl⟩
  simp only [bootContainer, h, issue]
  rw [issueLoad_construct answers hcap.symm]

end Sys2Proof.Machine
end

section
/-! PROOFS. A zero-operand opcode ignores X: a step on two code arrays whose fetched records decode to the same
opcode with different operands (R57). -/

namespace Sys2Proof.Machine

/-! ## A step by what its fetch finds (R74, R75) -/

theorem step_of_ip_outside {s : State} (hm : s.mode = .loaded)
    (hip : s.ip.toInt < 0 ∨ codeCap s ≤ s.ip.toInt) : step s = .next (s.setFault .illegalInstruction) := by
  rcases step_loaded_cases hm with e | ⟨hlow, hhigh, _⟩
  · exact e
  · omega

theorem step_of_not_executable {s : State} (hm : s.mode = .loaded)
    (hnot : ¬ ∃ i, decodeRecord s.params.tag (codeAt s s.ip.toInt.toNat) = .ok i ∧ i.executable = true) :
    step s = .next (s.setFault .illegalInstruction) := by
  rcases step_loaded_cases hm with e | ⟨_, _, i, p, hd, hi, _⟩
  · exact e
  · exact absurd ⟨i, hd, hi⟩ hnot

theorem step_of_executable {s : State} {i : Instr} (hm : s.mode = .loaded) (hlow : 0 ≤ s.ip.toInt)
    (hhigh : s.ip.toInt < codeCap s)
    (hd : decodeRecord s.params.tag (codeAt s s.ip.toInt.toNat) = .ok i) (hi : i.executable = true) :
    step s = exec i (s.setIp (BitVec.ofInt 32 (s.ip.toInt + 1))) := by
  have hin : ¬ (s.ip.toInt < 0 ∨ codeCap s ≤ s.ip.toInt) := by omega
  simp only [step, hm, cycle, fetch, if_neg hin, hd, dif_pos hi]
  exact execute_eq_exec ⟨i, hi⟩ _

/-! ## The same machine with another code array -/

/-- s with the records c in its code array. -/
def State.withCode (s : State) (c : List Record) : State := { s with code := c }

/-- The execute stage reads no record and writes none (R24). -/
theorem execIgnores_withCode (c : List Record) : ExecIgnores (·.withCode c) := by
  constructor <;> intros <;> rfl

/-- The meaning of a zero-operand opcode does not read X (R57). -/
theorem exec_withOperand_of_not_usesOperand {m : Mnemonic} (hm : m.usesOperand = false) (x y : Word) :
    exec (m.withOperand x) = exec (m.withOperand y) := by
  cases m with
  | LIT | LOD | STO => cases hm
  | ILL | ADD | SUB | MUL | DIV | WRT => rfl

/-- What fetch hands on from the record r, it hands on with the same effect from the record r'. -/
def RunsAs (t : TagMap) (r r' : Record) : Prop :=
  ∀ i, decodeRecord t r = .ok i → i.executable = true →
    ∃ i', decodeRecord t r' = .ok i' ∧ i'.executable = true ∧ exec i' = exec i

theorem RunsAs.refl (t : TagMap) (r : Record) : RunsAs t r r := fun i hd hi => ⟨i, hd, hi, rfl⟩

/-- R57 for one record: a zero-operand opcode with two operands. -/
theorem runsAs_of_not_usesOperand {t : TagMap} (ht : t.injective = true) {m : Mnemonic}
    (hm : m.usesOperand = false) (x y : Word) : RunsAs t ⟨t.of m, x⟩ ⟨t.of m, y⟩ := by
  intro i hd hi
  rw [decodeRecord_tag ht] at hd
  cases hd
  rw [executable_withOperand] at hi
  exact ⟨_, decodeRecord_tag ht m y, (executable_withOperand m y).trans hi,
    exec_withOperand_of_not_usesOperand hm y x⟩

/-- A code array with one record replaced, at every position. -/
theorem runsAs_codeAt_set {t : TagMap} {r r' : Record} (h : RunsAs t r r') (s : State) (c : List Record)
    (n j : Nat) : RunsAs t (codeAt (s.withCode (c.set n r)) j) (codeAt (s.withCode (c.set n r')) j) := by
  simp only [codeAt, State.withCode, List.getElem?_set]
  split_ifs with hn hlen
  · exact h
  · exact RunsAs.refl t _
  · exact RunsAs.refl t _

/-- A step does the same on two code arrays, the arrays themselves aside, when the records at IP run as each other. -/
theorem step_withCode {s : State} {c : List Record}
    (h : RunsAs s.params.tag (codeAt s s.ip.toInt.toNat) (codeAt (s.withCode c) s.ip.toInt.toNat))
    (h' : RunsAs s.params.tag (codeAt (s.withCode c) s.ip.toInt.toNat) (codeAt s s.ip.toInt.toNat)) :
    step (s.withCode c) = mapNext (·.withCode c) (step s) := by
  cases hm : s.mode with
  | unloaded => simp only [step, State.withCode, hm, mapNext]
  | faulted => simp only [step, State.withCode, hm, mapNext]
  | loaded =>
    have hm' : (s.withCode c).mode = .loaded := hm
    by_cases hip : s.ip.toInt < 0 ∨ codeCap s ≤ s.ip.toInt
    · rw [step_of_ip_outside hm hip, step_of_ip_outside hm' hip]
      rfl
    by_cases hex : ∃ i, decodeRecord s.params.tag (codeAt s s.ip.toInt.toNat) = .ok i ∧ i.executable = true
    · obtain ⟨i, hd, hi⟩ := hex
      obtain ⟨i', hd', hi', heq⟩ := h i hd hi
      have hlow : 0 ≤ s.ip.toInt := by omega
      have hhigh : s.ip.toInt < codeCap s := by omega
      rw [step_of_executable hm hlow hhigh hd hi, step_of_executable hm' hlow hhigh hd' hi', heq]
      exact (execIgnores_withCode c).exec i (s.setIp _)
    · have hex' : ¬ ∃ i, decodeRecord s.params.tag (codeAt (s.withCode c) s.ip.toInt.toNat) = .ok i ∧
          i.executable = true := by
        rintro ⟨i, hd, hi⟩
        obtain ⟨i', hd', hi', _⟩ := h' i hd hi
        exact hex ⟨i', hd', hi'⟩
      rw [step_of_not_executable hm hex, step_of_not_executable hm' hex']
      rfl

/-- R57: a step on a record of a zero-operand opcode is the step on the record with another operand. -/
theorem step_set_of_not_usesOperand {s : State} {m : Mnemonic} (ht : s.params.tag.injective = true)
    (hm : m.usesOperand = false) (n : Nat) (x y : Word) :
    step (s.withCode (s.code.set n ⟨s.params.tag.of m, y⟩)) =
      mapNext (·.withCode (s.code.set n ⟨s.params.tag.of m, y⟩))
        (step (s.withCode (s.code.set n ⟨s.params.tag.of m, x⟩))) := by
  have hxy := runsAs_of_not_usesOperand ht hm x y
  have hyx := runsAs_of_not_usesOperand ht hm y x
  exact step_withCode (s := s.withCode (s.code.set n ⟨s.params.tag.of m, x⟩))
    (runsAs_codeAt_set hxy s s.code n _) (runsAs_codeAt_set hyx s s.code n _)

/-- Settles O32: the three kinds of outcome of `step_set_of_not_usesOperand`. -/
theorem zeroOperandIgnoresX : Obligations.ZeroOperandIgnoresX := by
  unfold Obligations.ZeroOperandIgnoresX
  intro s n m x ht hm
  have hstep := step_set_of_not_usesOperand ht hm n x 0
  refine ⟨fun t h => ?_, fun r h => ?_, fun r h => ?_⟩ <;>
    exact hstep.trans (congrArg (mapNext _) h)

end Sys2Proof.Machine
end

section
/-! PROOFS. The textual assembler: tokens, mnemonics and operands read back from their rendering (R67 to R72, decision
D19). -/

namespace Sys2Proof.Machine

/-! ## Decimal digits (R70, R100) -/

theorem toNat_digitByte {d : Nat} (h : d < 10) : (digitByte d).toNat = 0x30 + d := by
  rw [digitByte, BitVec.toNat_ofNat]
  omega

/-- The digits before the last, and the last. -/
theorem decDigits_succ (fuel n : Nat) :
    (n < 10 ∧ decDigits (fuel + 1) n = [digitByte n]) ∨
    (10 ≤ n ∧ decDigits (fuel + 1) n = decDigits fuel (n / 10) ++ [digitByte (n % 10)]) := by
  by_cases h : n < 10
  · exact .inl ⟨h, if_pos h⟩
  · exact .inr ⟨by omega, if_neg h⟩

theorem decDigits_ne_nil (fuel n : Nat) : decDigits (fuel + 1) n ≠ [] := by
  rcases decDigits_succ fuel n with ⟨_, e⟩ | ⟨_, e⟩ <;> simp [e]

theorem digit_of_mem_decDigits {fuel n : Nat} {b : Byte} (h : b ∈ decDigits fuel n) :
    0x30 ≤ b.toNat ∧ b.toNat ≤ 0x39 := by
  induction fuel generalizing n with
  | zero => cases h
  | succ fuel ih =>
    rcases decDigits_succ fuel n with ⟨hn, e⟩ | ⟨_, e⟩ <;> rw [e] at h
    · rw [List.mem_singleton.mp h, toNat_digitByte hn]
      omega
    · rcases List.mem_append.mp h with h | h
      · exact ih h
      · rw [List.mem_singleton.mp h, toNat_digitByte (Nat.mod_lt n (by decide))]
        omega

theorem parseDigitsFrom_append (acc : Nat) (xs ys : List Byte) :
    parseDigitsFrom acc (xs ++ ys) = (parseDigitsFrom acc xs).bind (parseDigitsFrom · ys) := by
  induction xs generalizing acc with
  | nil => rfl
  | cons b bs ih =>
    simp only [List.cons_append, parseDigitsFrom]
    split
    · exact ih _
    · rfl

theorem parseDigitsFrom_digitByte (acc : Nat) {d : Nat} (h : d < 10) :
    parseDigitsFrom acc [digitByte d] = some (10 * acc + d) := by
  have hdigit : 0x30 ≤ 0x30 + d ∧ 0x30 + d ≤ 0x39 := by omega
  simp only [parseDigitsFrom, toNat_digitByte h, if_pos hdigit, Nat.add_sub_cancel_left]

/-- The digits of a number are read back as it, when there are enough of them. -/
theorem parseDigitsFrom_decDigits {fuel n : Nat} (h : n < 10 ^ fuel) (hf : fuel ≠ 0) :
    parseDigitsFrom 0 (decDigits fuel n) = some n := by
  induction fuel generalizing n with
  | zero => exact absurd rfl hf
  | succ fuel ih =>
    rcases decDigits_succ fuel n with ⟨hn, e⟩ | ⟨hn, e⟩ <;> rw [e]
    · rw [parseDigitsFrom_digitByte 0 hn, Nat.mul_zero, Nat.zero_add]
    · have hfuel : fuel ≠ 0 := by
        rintro rfl
        omega
      have hhead : n / 10 < 10 ^ fuel := by
        rw [pow_succ] at h
        omega
      rw [parseDigitsFrom_append, ih hhead hfuel, Option.bind_some,
        parseDigitsFrom_digitByte _ (Nat.mod_lt n (by decide)), Nat.div_add_mod]

/-- The digits `dec` writes are a digit token with their value. -/
theorem parseDigits_decDigits {n : Nat} (h : n ≤ 2147483648) : parseDigits (decDigits 10 n) = some n := by
  rw [parseDigits, if_neg (decDigits_ne_nil 9 n)]
  exact parseDigitsFrom_decDigits (by omega) (by decide)

/-! ## Operands (R70) -/

theorem wordInRange_toInt (x : Word) : wordInRange x.toInt = some x := by
  rw [wordInRange, if_pos (toInt_range x), BitVec.ofInt_toInt]

/-- A token of digits alone has no sign. -/
theorem parseOperand_of_digits {tok : List Byte} (hne : tok ≠ [])
    (hdigits : ∀ b ∈ tok, 0x30 ≤ b.toNat ∧ b.toNat ≤ 0x39) :
    parseOperand tok = (parseDigits tok).bind fun n => wordInRange (n : Int) := by
  cases tok with
  | nil => exact absurd rfl hne
  | cons b bs =>
    have hb := hdigits b List.mem_cons_self
    have hminus : b ≠ 0x2D := by
      rintro rfl
      simp at hb
    have hplus : b ≠ 0x2B := by
      rintro rfl
      simp at hb
    simp only [parseOperand, if_neg hminus, if_neg hplus]

/-- The operand rendered in decimal is read back (R70, R72). -/
theorem parseOperand_dec (x : Word) : parseOperand (dec x) = some x := by
  have hrange := toInt_range x
  simp only [intMin, intMax] at hrange
  have hdigits := parseDigits_decDigits (n := x.toInt.natAbs) (by omega)
  unfold dec
  split_ifs with hneg
  · have habs : -(x.toInt.natAbs : Int) = x.toInt := by omega
    simp only [parseOperand, if_true, hdigits, Option.bind_some, habs, wordInRange_toInt]
  · have habs : (x.toInt.natAbs : Int) = x.toInt := by omega
    rw [parseOperand_of_digits (decDigits_ne_nil 9 _) (fun _ => digit_of_mem_decDigits), hdigits,
      Option.bind_some, habs, wordInRange_toInt]

/-! ## Tokens (R67) -/

/-- A token: at least one byte, none of them whitespace. -/
def IsToken (tok : List Byte) : Prop := tok ≠ [] ∧ ∀ b ∈ tok, isSpaceByte b = false

theorem isSpaceByte_of_digit {b : Byte} (h : 0x30 ≤ b.toNat ∧ b.toNat ≤ 0x39) : isSpaceByte b = false := by
  rw [isSpaceByte, decide_eq_false_iff_not]
  omega

theorem isToken_decDigits (fuel n : Nat) : IsToken (decDigits (fuel + 1) n) :=
  ⟨decDigits_ne_nil fuel n, fun _ hb => isSpaceByte_of_digit (digit_of_mem_decDigits hb)⟩

theorem isToken_dec (x : Word) : IsToken (dec x) := by
  obtain ⟨hne, hbytes⟩ := isToken_decDigits 9 x.toInt.natAbs
  unfold dec
  split_ifs with hneg
  · exact ⟨List.cons_ne_nil _ _, List.forall_mem_cons.mpr ⟨by decide, hbytes⟩⟩
  · exact ⟨hne, hbytes⟩

theorem isToken_mnemonicText (m : Mnemonic) : IsToken (mnemonicText m) := by
  cases m <;> exact ⟨by decide, by decide⟩

/-- Bytes that are no whitespace go on the token read so far. -/
theorem tokensFrom_append {tok : List Byte} (h : ∀ b ∈ tok, isSpaceByte b = false) (cur rest : List Byte) :
    tokensFrom cur (tok ++ rest) = tokensFrom (cur ++ tok) rest := by
  induction tok generalizing cur with
  | nil => simp
  | cons b bs ih =>
    obtain ⟨hb, hbs⟩ := List.forall_mem_cons.mp h
    rw [List.cons_append, tokensFrom, if_neg (by simp [hb]), ih hbs, List.append_assoc, List.singleton_append]

theorem tokens_of_token {tok : List Byte} (h : IsToken tok) : tokens tok = [tok] := by
  obtain ⟨hne, hbytes⟩ := h
  have hread : tokensFrom [] tok = tokensFrom tok [] := by simpa using tokensFrom_append hbytes [] []
  rw [tokens, hread, tokensFrom, if_neg hne]

theorem tokens_token_space {tok : List Byte} (h : IsToken tok) (rest : List Byte) :
    tokens (tok ++ 0x20 :: rest) = tok :: tokens rest := by
  obtain ⟨hne, hbytes⟩ := h
  rw [tokens, tokensFrom_append hbytes, List.nil_append, tokensFrom, if_pos (by decide), if_neg hne, tokens]

/-! ## Lines (R69, R72) -/

/-- Every mnemonic is spelled in its own way (R68). -/
theorem parseMnemonic_mnemonicText (m : Mnemonic) : parseMnemonic (mnemonicText m) = some m := by
  cases m <;> decide

theorem wellFormed_withOperand (m : Mnemonic) (x : Word) :
    (m.withOperand x).wellFormed = (m.usesOperand || x == 0) := by
  rw [Instr.wellFormed, withOperand_mnemonic, withOperand_operand]

/-- R72 by the two forms of a line. -/
theorem parseLine_renderInstr {i : Instr} (h : i.wellFormed = true) : parseLine (renderInstr i) = some i := by
  unfold renderInstr parseLine
  by_cases huses : i.mnemonic.usesOperand = true
  · rw [if_pos huses, tokens_token_space (isToken_mnemonicText _), tokens_of_token (isToken_dec _)]
    simp only [parseMnemonic_mnemonicText, parseOperand_dec, huses, Option.bind_some, if_true,
      withOperand_of_instr]
  · have hzero : i.operand = 0 := by simpa [Instr.wellFormed, huses] using h
    rw [if_neg huses, tokens_of_token (isToken_mnemonicText _)]
    simp only [parseMnemonic_mnemonicText, huses, Option.bind_some, Bool.false_eq_true, if_false]
    rw [← hzero, withOperand_of_instr]

/-- R69: x is 0 in a parsed zero-operand instruction. -/
theorem wellFormed_of_parseLine {line : List Byte} {i : Instr} (h : parseLine line = some i) :
    i.wellFormed = true := by
  unfold parseLine at h
  split at h
  · obtain ⟨m, _, hm⟩ := Option.bind_eq_some_iff.mp h
    split at hm
    · cases hm
    · cases hm
      simp [wellFormed_withOperand]
  · obtain ⟨m, _, hm⟩ := Option.bind_eq_some_iff.mp h
    split at hm
    · next huses =>
      obtain ⟨x, _, hx⟩ := Option.bind_eq_some_iff.mp hm
      cases hx
      simp [wellFormed_withOperand, huses]
    · cases hm
  · cases h

/-- Settles O54. -/
theorem assemblerRoundTrip : Obligations.AssemblerRoundTrip := by
  unfold Obligations.AssemblerRoundTrip
  exact ⟨fun _ => parseLine_renderInstr, fun _ _ => wellFormed_of_parseLine⟩

end Sys2Proof.Machine
end

section
/-! PROOFS. Fetch and dispatch: what a fetch lets through and what it hands on, and the step it makes (R74 to R78,
R84). -/

namespace Sys2Proof.Machine

/-! ## What fetch hands on (R74, R75) -/

/-- Everything known of an instruction that fetch hands on: where it was read, and the state with IP one higher. -/
theorem fetch_eq_ok {s t : State} {i : Executable} (h : fetch s = .ok i t) :
    0 ≤ s.ip.toInt ∧ s.ip.toInt < codeCap s ∧
    decodeRecord s.params.tag (codeAt s s.ip.toInt.toNat) = .ok i.val ∧
    ∃ p : Word, p.toInt = s.ip.toInt + 1 ∧ t = s.setIp p := by
  rcases fetch_cases s with e | ⟨hlow, hhigh, j, p, hd, hp, e⟩ <;> rw [h] at e <;> cases e
  exact ⟨hlow, hhigh, hd, p, hp, rfl⟩

theorem step_of_fetch {s t : State} {i : Executable} (hm : s.mode = .loaded) (h : fetch s = .ok i t) :
    step s = execute i t := by
  simp only [step, hm, cycle, h]

/-- LOAD writes no IP, whether it takes the sequence or not (R122). -/
theorem issueLoad_ip (seq : List Record) (s : State) : (issueLoad seq s).1.ip = s.ip := by
  rcases issueLoad_cases seq s with ⟨_, _, e⟩ | ⟨_, _, e⟩ | ⟨_, e⟩ <;> rw [e]
  exact State.setCode_ip s seq

/-- Settles O36: fetch's own effect, `exec_control` for the instructions, and LOAD's cases. -/
theorem ipAdvancesBeforeExecute : Obligations.IpAdvancesBeforeExecute := by
  unfold Obligations.IpAdvancesBeforeExecute
  refine ⟨fun s t i h => ?_, fun i s t h => (exec_control h).1, fun s seq => ⟨issueLoad_ip seq s, rfl⟩⟩
  obtain ⟨_, _, _, p, hp, rfl⟩ := fetch_eq_ok h
  exact ⟨rfl, hp, fun hm => (step_of_fetch hm h).trans (execute_eq_exec i _)⟩

/-! ## The executable opcodes (R74, R78) -/

theorem mnemonic_ne_ill_of_executable {i : Instr} (h : i.executable = true) : i.mnemonic ≠ .ILL := by
  intro hill
  rw [Instr.executable, hill] at h
  cases h

theorem op_encodeRecord_mem_legalOps (t : TagMap) {i : Instr} (h : i.executable = true) :
    (encodeRecord t i).op ∈ legalOps t :=
  mem_legalOps_iff.mpr ⟨i.mnemonic, h, rfl⟩

/-- An injective TAG keeps the mnemonics apart (R6). -/
theorem tag_of_inj {t : TagMap} (ht : t.injective = true) {m n : Mnemonic} (h : t.of m = t.of n) : m = n := by
  have hdecode := decodeOp_of ht m
  rw [h, decodeOp_of ht n] at hdecode
  exact (Option.some.inj hdecode).symm

/-- Settles O55: the record is the instruction's, whose type is executable. -/
theorem executeSeesOnlyExecutable : Obligations.ExecuteSeesOnlyExecutable := by
  unfold Obligations.ExecuteSeesOnlyExecutable
  intro s t i h
  obtain ⟨hlow, hhigh, hd, _⟩ := fetch_eq_ok h
  have hrecord := encodeRecord_of_decodeRecord hd
  have hill := mnemonic_ne_ill_of_executable i.property
  refine ⟨hlow, hhigh, hrecord.symm, ?_, fun ht hop => ?_, hill, fun hm => step_of_fetch hm h, execute_eq_exec i t⟩
  · rw [← hrecord]
    exact op_encodeRecord_mem_legalOps _ i.property
  · rw [← hrecord] at hop
    exact hill (tag_of_inj ht (n := .ILL) hop)

/-! ## Steps that raise IllegalInstruction, and steps that run (R74, R80, R84) -/

/-- What is decoded and is not executable is ILL, whose arm is the raise that fetch makes of it (R74, R84). -/
theorem exec_of_not_executable {i : Instr} (h : i.executable = false) (s : State) :
    exec i s = .next (s.setFault .illegalInstruction) := by
  cases i with
  | ill x => rfl
  | _ => cases h

theorem step_of_decodes_not_executable {s : State} {i : Instr} (hm : s.mode = .loaded)
    (hd : decodeRecord s.params.tag (codeAt s s.ip.toInt.toNat) = .ok i) (hi : i.executable = false) :
    step s = .next (s.setFault .illegalInstruction) := by
  refine step_of_not_executable hm ?_
  rintro ⟨j, hj, hexec⟩
  rw [hd] at hj
  cases hj
  rw [hi] at hexec
  cases hexec

/-- Settles O17: a record with op = TAG(ILL) decodes to ILL, with any x. -/
theorem illRaisesIllegalInstruction : Obligations.IllRaisesIllegalInstruction := by
  unfold Obligations.IllRaisesIllegalInstruction
  refine ⟨fun s x => exec_of_not_executable rfl s, fun s ht hm _ _ hop => ?_⟩
  have hd : decodeRecord s.params.tag (codeAt s s.ip.toInt.toNat) = .ok (.ill (codeAt s s.ip.toInt.toNat).x) :=
    decodeRecord_eq_ok_iff.mpr ⟨.ILL, by rw [hop]; exact decodeOp_of ht .ILL, rfl⟩
  exact step_of_decodes_not_executable hm hd rfl

/-- Settles O34: IP does not overflow, since it is below CODE_CAP. -/
theorem stepRunsTheDecodedInstruction : Obligations.StepRunsTheDecodedInstruction := by
  unfold Obligations.StepRunsTheDecodedInstruction
  intro s i hm hlow hhigh hd
  constructor
  · intro hi
    have hcap := codeCap_range s
    exact ⟨_, toInt_succ (by omega), step_of_executable hm hlow hhigh hd hi⟩
  · intro hi
    rw [exec_of_not_executable hi]
    exact step_of_decodes_not_executable hm hd hi

/-- Settles O35: the check of IP, and the check of op against LEGAL. -/
theorem fetchRejectsIllegal : Obligations.FetchRejectsIllegal := by
  unfold Obligations.FetchRejectsIllegal
  intro s ht hm hbad
  rcases hbad with hlow | hhigh | hop
  · exact step_of_ip_outside hm (.inl hlow)
  · exact step_of_ip_outside hm (.inr hhigh)
  · exact step_of_not_executable hm (mt (decodes_executable_iff_mem_legalOps ht _).mp hop)

end Sys2Proof.Machine
end

section
/-! PROOFS. RUN and the length of the code array: CODE_CAP clean steps in a row fit into it from IP = 0 only, and then
every fetch is out of bounds (R83, R125). -/

namespace Sys2Proof.Machine

open Sys2Proof.Safety

/-- A step that raises nothing fetched inside the code array (R74). -/
theorem step_clean_ip_inside {s t : State} (h : step s = .next t) (hf : t.fault = none) :
    0 ≤ s.ip.toInt ∧ s.ip.toInt < codeCap s := by
  rcases step_next_cases h with rfl | ⟨hlow, hhigh, _⟩
  · cases hf
  · exact ⟨hlow, hhigh⟩

/-- The first and the last of a row of clean steps fetched inside the code array. -/
theorem cleanSteps_ip_inside {n : Nat} {s u : State} (h : cleanSteps (n + 1) s = some u) :
    0 ≤ s.ip.toInt ∧ s.ip.toInt + n < codeCap s := by
  induction n generalizing s with
  | zero =>
    obtain ⟨t, hs, hf, _⟩ := cleanSteps_succ_cases h
    simpa using step_clean_ip_inside hs hf
  | succ n ih =>
    obtain ⟨t, hs, hf, hrest⟩ := cleanSteps_succ_cases h
    obtain ⟨hlow, _⟩ := step_clean_ip_inside hs hf
    obtain ⟨_, hlast⟩ := ih hrest
    have hip := step_clean_ip hs hf
    have hcap : codeCap t = codeCap s := by rw [codeCap, (step_frame hs).1, codeCap]
    exact ⟨hlow, by push_cast; omega⟩

theorem codeCap_val_eq_succ {s : State} (hcap : 1 ≤ codeCap s) : ∃ n, s.params.codeCap.val = n + 1 :=
  Nat.exists_eq_add_one.mpr (by simp only [codeCap] at hcap; omega)

/-- CODE_CAP clean steps, at least one of them, go from IP = 0 to IP = CODE_CAP (R83 item 2). -/
theorem ip_of_codeCap_cleanSteps {s u : State} (hcap : 1 ≤ codeCap s)
    (h : cleanSteps s.params.codeCap.val s = some u) : s.ip.toInt = 0 ∧ u.ip.toInt = codeCap s := by
  obtain ⟨hip, _⟩ := ipAfterCleanSteps _ s u h
  obtain ⟨n, hn⟩ := codeCap_val_eq_succ hcap
  rw [hn] at h hip
  obtain ⟨hlow, hlast⟩ := cleanSteps_ip_inside h
  simp only [codeCap, hn] at hlast ⊢
  omega

/-- A completed RUN of at least one cycle: it went from IP = 0 to CODE_CAP, and MODE is Loaded (R82, R83). -/
theorem ip_of_completed_run {s t : State} (h : MachineInv s) (hm : s.mode = .loaded) (hcap : 1 ≤ codeCap s)
    (hrun : issue .run s = (t, .completed)) :
    s.ip.toInt = 0 ∧ t.ip.toInt = codeCap s ∧ codeCap t = codeCap s ∧ t.mode = .loaded := by
  rcases runCompletesOrFaults s h hm with ⟨t', e, _, _, hmode, u, hu, ht⟩ | ⟨t', k, e, _⟩ <;>
    rw [hrun] at e <;> cases e
  obtain ⟨hstart, hend⟩ := ip_of_codeCap_cleanSteps hcap hu
  obtain ⟨_, hparams, _⟩ := ipAfterCleanSteps _ s u hu
  have hip : t.ip = u.ip := by rw [ht]
  have hsame : t.params = s.params := by rw [ht, ← hparams]
  exact ⟨hstart, hip ▸ hend, by rw [codeCap, hsame, codeCap], hmode⟩

/-- A RUN of no cycle changes RC alone and completes (R83 item 4, decision D16). -/
theorem issueRun_of_codeCap_zero {s : State} (hm : s.mode = .loaded) (hf : s.fault = none) (hcap : codeCap s = 0) :
    issueRun s = (s.setRc 0, .completed) := by
  obtain ⟨_, e⟩ := (issueRun_cases s).resolve_right fun hrefused => hrefused.1 hm
  have hzero : s.params.codeCap.val = 0 := by simp only [codeCap] at hcap; omega
  have hresp : respond (s.setRc 0) = .completed := by simp only [respond, State.setRc_fault, hf]
  rw [e, hzero, runLoop, hresp]

/-- Settles O47: the loop's clean steps fit into the code array from IP = 0 only, and CODE_CAP = 0 leaves no turn. -/
theorem runCompletesOnlyFromIndexZero : Obligations.RunCompletesOnlyFromIndexZero := by
  unfold Obligations.RunCompletesOnlyFromIndexZero
  intro s h hm
  refine ⟨fun t hcap hrun => ?_, issueRun_of_codeCap_zero hm (h.fault_none_of_loaded hm)⟩
  obtain ⟨hstart, hend, _⟩ := ip_of_completed_run h hm hcap hrun
  exact ⟨hstart, hend⟩

/-! ## Commands with IP past the code array (R83 item 3, R125) -/

theorem issueStep_of_ip_outside {s : State} (hm : s.mode = .loaded) (hip : codeCap s ≤ s.ip.toInt) :
    issueStep s = (s.setFault .illegalInstruction, .faulted .illegalInstruction) := by
  simp only [issueStep, step_of_ip_outside hm (.inr hip), respond, State.setFault_fault]

/-- RUN's first fetch raises, if RUN has a turn at all. -/
theorem issueRun_of_ip_outside {s : State} (hm : s.mode = .loaded) (hcap : 1 ≤ codeCap s)
    (hip : codeCap s ≤ s.ip.toInt) :
    issueRun s = ((s.setRc 0).setFault .illegalInstruction, .faulted .illegalInstruction) := by
  obtain ⟨_, e⟩ := (issueRun_cases s).resolve_right fun hrefused => hrefused.1 hm
  obtain ⟨n, hn⟩ := codeCap_val_eq_succ hcap
  have hstep : step (s.setRc 0) = .next ((s.setRc 0).setFault .illegalInstruction) :=
    step_of_ip_outside hm (.inr hip)
  rw [e, hn, runLoop_faulted n hstep rfl]
  simp only [respond, State.setFault_fault]

/-- Settles O48: the completed RUN has left IP at CODE_CAP, in MODE = Loaded. -/
theorem nothingRunsAfterACompletedRun : Obligations.NothingRunsAfterACompletedRun := by
  unfold Obligations.NothingRunsAfterACompletedRun
  intro s t h hm hcap hrun
  obtain ⟨_, hend, hsame, hloaded⟩ := ip_of_completed_run h hm hcap hrun
  have hpast : codeCap t ≤ t.ip.toInt := by rw [hsame, hend]
  exact ⟨issueStep_of_ip_outside hloaded hpast, issueRun_of_ip_outside hloaded (hsame ▸ hcap) hpast⟩

end Sys2Proof.Machine
end

section
/-! PROOFS. STO where it completes (R88), and the direction in which an instruction that completes moves SP (R129). -/

namespace Sys2Proof.Machine

/-- R88, the completing case. -/
theorem execSto_of_inside {s : State} {x : Word} (hlow : 1 ≤ s.sp.toInt) (hhigh : s.sp.toInt ≤ stackCap s)
    (hx : 0 ≤ dataIndex x) (hx' : dataIndex x < stackCap s) :
    ∃ m p, execSto x s = .next { s with mem := m, sp := p } ∧ p.toInt = s.sp.toInt - 1 ∧
      ∀ j : Nat, Memory.word m j =
        if (j : Int) = dataIndex x then wordAt s (topIndex s).toNat else wordAt s j := by
  rcases execSto_cases x s with ⟨hout, _⟩ | ⟨_, _, _, _, p, hp, e⟩
  · simp only [OutOfBounds, topIndex] at hout
    omega
  · exact ⟨_, p, e, hp, Memory.word_store_toNat s.mem hx _⟩

/-- Settles O11 (`execSto_of_inside`). -/
theorem stoStoresTheTopAtX : Obligations.StoStoresTheTopAtX := by
  unfold Obligations.StoStoresTheTopAtX
  intro s x hlow hhigh hx hx'
  exact execSto_of_inside hlow hhigh hx hx'

/-- Settles O29: of the effects in `exec_effect`, those that leave no fault are the completed push, which raises SP,
and the completed store and the accepted transfer, which lower it. -/
theorem completingInstructionMovesSp : Obligations.CompletingInstructionMovesSp := by
  unfold Obligations.CompletingInstructionMovesSp
  intro i s t h hf
  cases exec_effect h with
  | raise _ _ eq | ceiling _ _ _ _ eq | sinkFailed _ _ _ _ _ _ eq =>
    subst eq
    cases hf
  | pushed _ _ who _ _ up eq =>
    subst eq
    exact .inl ⟨who, up⟩
  | stored _ _ _ who _ _ down eq =>
    subst eq
    refine .inr ⟨?_, down⟩
    rcases who with ⟨x, rfl, _⟩ | ⟨who, _⟩
    · exact List.mem_cons_self
    · exact List.mem_cons_of_mem _ (List.mem_append_left [Mnemonic.WRT] who)
  | emitted _ who _ down _ eq =>
    subst eq
    exact .inr ⟨by simp [who], down⟩

end Sys2Proof.Machine
end

section
/-! PROOFS. The arithmetic instructions on two entries: the exact result where it fits, ArithmeticOverflow where it does
not, DivideByZero, and the fault on fewer entries (R89 to R96, R106). -/

namespace Sys2Proof.Machine

/-! ## The shared sequence where it raises (R91, R107) -/

/-- R91 with two entries on which f raises k: the fault is entered and nothing else has changed. -/
theorem conclude_binOp_of_error {f : Word → Word → Except FaultKind Word} {s : State} {k : FaultKind}
    (hlow : 2 ≤ s.sp.toInt) (hhigh : s.sp.toInt ≤ stackCap s)
    (hf : f (wordAt s (topIndex s).toNat) (wordAt s (secondIndex s).toNat) = .error k) :
    conclude (binOp f s) = .next (s.setFault k) := by
  rcases conclude_binOp_cases f s with ⟨hout, _⟩ | ⟨_, _, ⟨k', hk, e⟩ | ⟨r, _, hr, _⟩⟩
  · simp only [OutOfBounds, topIndex, secondIndex] at hout
    omega
  · rw [hf] at hk
    cases hk
    exact e
  · rw [hf] at hr
    cases hr

/-- R107: with two entries and no fault yet, the end is the fault k and no other effect exactly when f raises k. -/
theorem conclude_binOp_eq_setFault_iff {f : Word → Word → Except FaultKind Word} {s : State} {k : FaultKind}
    (hlow : 2 ≤ s.sp.toInt) (hhigh : s.sp.toInt ≤ stackCap s) (hnone : s.fault = none) :
    conclude (binOp f s) = .next (s.setFault k) ↔
      f (wordAt s (topIndex s).toNat) (wordAt s (secondIndex s).toNat) = .error k := by
  refine ⟨fun h => ?_, conclude_binOp_of_error hlow hhigh⟩
  cases hf : f (wordAt s (topIndex s).toNat) (wordAt s (secondIndex s).toNat) with
  | error k' =>
    have hstate := Host.Outcome.next.inj ((conclude_binOp_of_error hlow hhigh hf).symm.trans h)
    have hkind : some k' = some k := congrArg State.fault hstate
    rw [Option.some.inj hkind]
  | ok r =>
    obtain ⟨m, p, e, _⟩ := conclude_binOp_of_ok hlow hhigh hf
    have hstate := Host.Outcome.next.inj (e.symm.trans h)
    have hkind : s.fault = some k := congrArg State.fault hstate
    rw [hnone] at hkind
    cases hkind

/-- R91, R106: with fewer than two entries an operand is out of bounds, before anything has changed. -/
theorem conclude_binOp_of_few (f : Word → Word → Except FaultKind Word) {s : State} (hfew : s.sp.toInt ≤ 1) :
    ∃ k, conclude (binOp f s) = .next (s.setFault k) := by
  rcases conclude_binOp_cases f s with ⟨_, e⟩ | ⟨hlow, _⟩
  · exact ⟨_, e⟩
  · omega

/-! ## The ALU functions (R89, R90, R96) -/

theorem narrow_eq_ok {v : Int} (hv : In32 v) : ∃ r : Word, narrow v = .ok r ∧ r.toInt = v := by
  rcases narrow_cases v with ⟨hout, _⟩ | ⟨_, r, hr, e⟩
  · exact absurd hv hout
  · exact ⟨r, e, hr⟩

theorem narrow_eq_error_iff {v : Int} : narrow v = .error .arithmeticOverflow ↔ ¬ In32 v := by
  rcases narrow_cases v with ⟨hout, e⟩ | ⟨hin, r, _, e⟩ <;> rw [e]
  · exact iff_of_true rfl hout
  · exact iff_of_false nofun (not_not.mpr hin)

theorem aluDiv_of_zero {a : Word} (ha : a.toInt = 0) (b : Word) : aluDiv a b = .error .divideByZero := if_pos ha

theorem aluDiv_eq_overflow_iff {a b : Word} :
    aluDiv a b = .error .arithmeticOverflow ↔ a.toInt = -1 ∧ b.toInt = intMin := by
  by_cases ha : a.toInt = 0
  · rw [aluDiv_of_zero ha]
    exact iff_of_false nofun fun ⟨hone, _⟩ => by omega
  · by_cases hedge : a.toInt = -1 ∧ b.toInt = intMin
    · exact iff_of_true (by rw [aluDiv, if_neg ha, if_pos hedge]) hedge
    · obtain ⟨r, e, _⟩ := aluDiv_eq_ok ha hedge
      exact iff_of_false (by rw [e]; nofun) hedge

/-! ## Where the result is written, and where the instruction faults -/

/-- R89, R91: with two entries on which f narrows the exact result v, and v in range, v is written. -/
theorem conclude_binOp_of_in32 {f : Word → Word → Except FaultKind Word} {s : State} {v : Int}
    (hlow : 2 ≤ s.sp.toInt) (hhigh : s.sp.toInt ≤ stackCap s)
    (hf : f (wordAt s (topIndex s).toNat) (wordAt s (secondIndex s).toNat) = narrow v) (hv : In32 v) :
    ∃ m p r, conclude (binOp f s) = .next { s with mem := m, sp := p } ∧ p.toInt = s.sp.toInt - 1 ∧
      r.toInt = v ∧ ∀ j : Nat, Memory.word m j = if (j : Int) = secondIndex s then r else wordAt s j := by
  obtain ⟨r, halu, hr⟩ := narrow_eq_ok hv
  obtain ⟨m, p, e, hp, hmem⟩ := conclude_binOp_of_ok hlow hhigh (hf.trans halu)
  exact ⟨m, p, r, e, hp, hr, hmem⟩

/-- Settles O12 (`conclude_binOp_of_in32`). -/
theorem addWritesTheExactSum : Obligations.AddWritesTheExactSum := by
  unfold Obligations.AddWritesTheExactSum
  intro s x hlow hhigh hfits
  exact conclude_binOp_of_in32 (f := aluAdd) hlow hhigh rfl hfits

/-- Settles O13 (`conclude_binOp_of_in32`). -/
theorem subWritesEarlierMinusLater : Obligations.SubWritesEarlierMinusLater := by
  unfold Obligations.SubWritesEarlierMinusLater
  intro s x hlow hhigh hfits
  exact conclude_binOp_of_in32 (f := aluSub) hlow hhigh rfl hfits

/-- Settles O14 (`conclude_binOp_of_in32`). -/
theorem mulWritesTheExactProduct : Obligations.MulWritesTheExactProduct := by
  unfold Obligations.MulWritesTheExactProduct
  intro s x hlow hhigh hfits
  exact conclude_binOp_of_in32 (f := aluMul) hlow hhigh rfl hfits

/-- Settles O21: each of the six reads the top, or the entry before it, before it changes anything. -/
theorem tooFewEntriesFault : Obligations.TooFewEntriesFault := by
  unfold Obligations.TooFewEntriesFault
  intro s x
  simp only [List.forall_mem_cons, List.not_mem_nil, false_imp_iff, implies_true, and_true]
  refine ⟨fun hnone => ⟨?sto, ?wrt⟩, fun hfew => ⟨?add, ?sub, ?mul, ?div⟩⟩
  case sto =>
    rcases execSto_cases x s with ⟨_, e⟩ | ⟨hlow, _⟩
    · exact ⟨_, e⟩
    · omega
  case wrt =>
    rcases execWrt_cases s with ⟨_, e⟩ | ⟨hlow, _⟩
    · exact ⟨_, e⟩
    · omega
  case add => exact conclude_binOp_of_few aluAdd hfew
  case sub => exact conclude_binOp_of_few aluSub hfew
  case mul => exact conclude_binOp_of_few aluMul hfew
  case div => exact conclude_binOp_of_few aluDiv hfew

/-- Settles O22: the instruction ends in the overflow exactly when its ALU function raises it. -/
theorem overflowFaultsExactlyOutOfRange : Obligations.OverflowFaultsExactlyOutOfRange := by
  unfold Obligations.OverflowFaultsExactlyOutOfRange
  rintro s x a b rfl rfl hlow hhigh hnone
  have hends (f : Word → Word → Except FaultKind Word) :=
    conclude_binOp_eq_setFault_iff (f := f) (k := .arithmeticOverflow) hlow hhigh hnone
  exact ⟨(hends aluAdd).trans narrow_eq_error_iff, (hends aluSub).trans narrow_eq_error_iff,
    (hends aluMul).trans narrow_eq_error_iff, (hends aluDiv).trans aluDiv_eq_overflow_iff⟩

/-- Settles O23: DIV checks for zero before it looks at the earlier operand. -/
theorem divByZeroFaults : Obligations.DivByZeroFaults := by
  unfold Obligations.DivByZeroFaults
  intro s x hlow hhigh hzero
  exact conclude_binOp_of_error (f := aluDiv) hlow hhigh (aluDiv_of_zero hzero _)

end Sys2Proof.Machine
end

section
/-! PROOFS. Straight code: two literals, an arithmetic instruction and a WRT in a row, and what the order of the two
literals changes (R97). -/

namespace Sys2Proof.Machine

open Sys2Proof.Safety

/-! ## One instruction at the head of straight code -/

theorem execAll_cons_of_clean (i : Executable) {s t : State} (rest : List Executable)
    (h : execute i s = .next t) (hf : t.fault = none) : execAll (i :: rest) s = execAll rest t := by
  simp only [execAll, h, hf, if_true]

theorem execAll_cons_of_faulted (i : Executable) {s t : State} {k : FaultKind} (rest : List Executable)
    (h : execute i s = .next t) (hf : t.fault = some k) : execAll (i :: rest) s = .next t := by
  simp only [execAll, h, hf, reduceCtorEq, if_false]

/-! ## Two literals (R86) -/

/-- Whether LIT faults, and with which kind, does not depend on the literal (R40, R42). -/
theorem execLit_of_no_room {s : State} (h : ¬ (0 ≤ s.sp.toInt ∧ s.sp.toInt < stackCap s - 1)) :
    ∃ k, ∀ x, ∃ t, execLit x s = .next t ∧ t.out = s.out ∧ t.fault = some k := by
  by_cases hout : OutOfBounds s (pushIndex s)
  · refine ⟨.memoryError, fun x => ?_⟩
    rcases execLit_cases x s with ⟨_, e⟩ | ⟨hlow, hhigh, _⟩ | ⟨hlow, hroom, _⟩
    · exact ⟨_, e, rfl, rfl⟩
    · simp only [OutOfBounds] at hout
      omega
    · exact absurd ⟨hlow, hroom⟩ h
  · refine ⟨.stackOverflow, fun x => ?_⟩
    rcases execLit_cases x s with ⟨hout', _⟩ | ⟨_, _, _, e⟩ | ⟨hlow, hroom, _⟩
    · exact absurd hout' hout
    · exact ⟨_, e, rfl, rfl⟩
    · exact absurd ⟨hlow, hroom⟩ h

/-- Two literals without room for both: a fault whose kind does not depend on them, and nothing on the port. -/
theorem execAll_lit_lit_of_no_room {s : State} (hf : s.fault = none)
    (h : ¬ (0 ≤ s.sp.toInt ∧ s.sp.toInt + 2 ≤ stackCap s - 1)) :
    ∃ k, ∀ (a b : Word) (rest : List Executable), ∃ t,
      execAll (⟨.lit a, rfl⟩ :: ⟨.lit b, rfl⟩ :: rest) s = .next t ∧ t.out = s.out ∧ t.fault = some k := by
  by_cases hfirst : 0 ≤ s.sp.toInt ∧ s.sp.toInt < stackCap s - 1
  · refine ⟨.stackOverflow, fun a b rest => ?_⟩
    obtain ⟨hlow, hroom⟩ := hfirst
    obtain ⟨m, p, ea, hp, _⟩ := execLit_of_room a hlow hroom
    have hcap : 1 ≤ stackCap s := by omega
    have hceil : p.toInt = stackCap s - 1 := by omega
    obtain ⟨m', eb, _⟩ := execLit_at_ceiling (s := (s.setMem m).setSp p) b hcap hceil
    exact ⟨_, (execAll_cons_of_clean ⟨.lit a, rfl⟩ _ ea hf).trans
      (execAll_cons_of_faulted ⟨.lit b, rfl⟩ rest eb rfl), rfl, rfl⟩
  · obtain ⟨k, hk⟩ := execLit_of_no_room hfirst
    refine ⟨k, fun a b rest => ?_⟩
    obtain ⟨t, e, hout, hkind⟩ := hk a
    exact ⟨t, execAll_cons_of_faulted ⟨.lit a, rfl⟩ _ e hkind, hout, hkind⟩

/-- Two literals with room for both: they are the earlier and the later entry, and only memory and SP change. -/
theorem execAll_lit_lit_of_room {s : State} (a b : Word) (hf : s.fault = none)
    (hlow : 0 ≤ s.sp.toInt) (hroom : s.sp.toInt + 2 ≤ stackCap s - 1) :
    ∃ m p, p.toInt = s.sp.toInt + 2 ∧ Memory.word m (p.toInt - 1).toNat = b ∧ Memory.word m (p.toInt - 2).toNat = a ∧
      ∀ rest, execAll (⟨.lit a, rfl⟩ :: ⟨.lit b, rfl⟩ :: rest) s = execAll rest ((s.setMem m).setSp p) := by
  obtain ⟨m, p, ea, hp, hm⟩ := execLit_of_room a hlow (by omega)
  have hlow' : 0 ≤ p.toInt := by omega
  have hroom' : p.toInt < stackCap s - 1 := by omega
  obtain ⟨m', p', eb, (hp' : p'.toInt = p.toInt + 1), hm'⟩ :=
    execLit_of_room (s := (s.setMem m).setSp p) b hlow' hroom'
  have hlater : ((p'.toInt - 1).toNat : Int) = p.toInt := by omega
  have hearlier : ((p'.toInt - 2).toNat : Int) = s.sp.toInt := by omega
  refine ⟨m', p', by omega, (hm' _).trans (if_pos hlater), ?_, fun rest => ?_⟩
  · have hne : ((p'.toInt - 2).toNat : Int) ≠ p.toInt := by omega
    exact ((hm' _).trans (if_neg hne)).trans ((hm _).trans (if_pos hearlier))
  · exact (execAll_cons_of_clean ⟨.lit a, rfl⟩ _ ea hf).trans (execAll_cons_of_clean ⟨.lit b, rfl⟩ rest eb hf)

/-! ## WRT of a known top (R98) -/

/-- OUT and FAULT after a WRT depend on the top alone, whatever the rest of memory and SP are. -/
theorem execAll_wrt_of_top {s : State} (hf : s.fault = none) (r : Word) :
    ∃ out fault, ∀ m p, 1 ≤ p.toInt → p.toInt ≤ stackCap s → Memory.word m (p.toInt - 1).toNat = r →
      ∃ t, execAll [⟨.wrt 0, rfl⟩] ((s.setMem m).setSp p) = .next t ∧ t.out = out ∧ t.fault = fault := by
  have hcases (m : Memory) (p : Word) := execWrt_cases ((s.setMem m).setSp p)
  cases ha : sinkAnswer s with
  | accept =>
    refine ⟨s.out ++ (dec r ++ [newline]), none, fun m p hlow hhigh htop => ?_⟩
    subst htop
    rcases hcases m p with ⟨hout, _⟩ | ⟨_, _, p', _, ⟨_, e⟩ | ⟨k, hfail, _⟩⟩
    · simp only [OutOfBounds, topIndex, State.setSp_sp, stackCap_setSp, stackCap_setMem] at hout
      omega
    · exact ⟨_, execAll_cons_of_clean ⟨.wrt 0, rfl⟩ [] e hf, rfl, hf⟩
    · cases ha.symm.trans hfail
  | fail k =>
    refine ⟨s.out, some (.outputError k), fun m p hlow hhigh _ => ?_⟩
    rcases hcases m p with ⟨hout, _⟩ | ⟨_, _, p', _, ⟨haccept, _⟩ | ⟨k', hfail, e⟩⟩
    · simp only [OutOfBounds, topIndex, State.setSp_sp, stackCap_setSp, stackCap_setMem] at hout
      omega
    · cases ha.symm.trans haccept
    · cases ha.symm.trans hfail
      exact ⟨_, execAll_cons_of_faulted ⟨.wrt 0, rfl⟩ [] e rfl, rfl, rfl⟩

/-! ## Two literals and an arithmetic instruction (R91) -/

section BinOp

variable {f : Word → Word → Except FaultKind Word} {op : Executable} {s : State}
  (hop : ∀ t, execute op t = conclude (binOp f t)) (hf : s.fault = none)
include hop hf

theorem execAll_lit_lit_binOp_of_error {a b : Word} {k : FaultKind} (halu : f b a = .error k)
    (hlow : 0 ≤ s.sp.toInt) (hroom : s.sp.toInt + 2 ≤ stackCap s - 1) (rest : List Executable) :
    ∃ t, execAll (⟨.lit a, rfl⟩ :: ⟨.lit b, rfl⟩ :: op :: rest) s = .next t ∧ t.out = s.out ∧ t.fault = some k := by
  obtain ⟨m, p, hp, hb, ha, hlits⟩ := execAll_lit_lit_of_room a b hf hlow hroom
  have hlow' : 2 ≤ p.toInt := by omega
  have hhigh' : p.toInt ≤ stackCap s := by omega
  have hend := conclude_binOp_of_error (s := (s.setMem m).setSp p) hlow' hhigh' ((congrArg₂ f hb ha).trans halu)
  exact ⟨_, (hlits _).trans (execAll_cons_of_faulted op rest ((hop _).trans hend) rfl), rfl, rfl⟩

theorem execAll_lit_lit_binOp_of_ok {a b r : Word} (halu : f b a = .ok r)
    (hlow : 0 ≤ s.sp.toInt) (hroom : s.sp.toInt + 2 ≤ stackCap s - 1) :
    ∃ m p, p.toInt = s.sp.toInt + 1 ∧ Memory.word m (p.toInt - 1).toNat = r ∧
      ∀ rest, execAll (⟨.lit a, rfl⟩ :: ⟨.lit b, rfl⟩ :: op :: rest) s = execAll rest ((s.setMem m).setSp p) := by
  obtain ⟨m, p, hp, hb, ha, hlits⟩ := execAll_lit_lit_of_room a b hf hlow hroom
  have hlow' : 2 ≤ p.toInt := by omega
  have hhigh' : p.toInt ≤ stackCap s := by omega
  obtain ⟨m', p', hend, (hp' : p'.toInt = p.toInt - 1), hm'⟩ :=
    conclude_binOp_of_ok (s := (s.setMem m).setSp p) hlow' hhigh' ((congrArg₂ f hb ha).trans halu)
  have hslot : ((p'.toInt - 1).toNat : Int) = p.toInt - 2 := by omega
  exact ⟨m', p', by omega, (hm' _).trans (if_pos hslot),
    fun rest => (hlits _).trans (execAll_cons_of_clean op rest ((hop _).trans hend) hf)⟩

/-- OUT and FAULT after LIT a; LIT b; OP; WRT depend on the ALU's answer alone. -/
theorem execAll_lit_lit_binOp_wrt (answer : Except FaultKind Word) :
    ∃ out fault, ∀ a b : Word, f b a = answer →
      ∃ t, execAll [⟨.lit a, rfl⟩, ⟨.lit b, rfl⟩, op, ⟨.wrt 0, rfl⟩] s = .next t ∧ t.out = out ∧ t.fault = fault := by
  by_cases hspace : 0 ≤ s.sp.toInt ∧ s.sp.toInt + 2 ≤ stackCap s - 1
  · obtain ⟨hlow, hroom⟩ := hspace
    cases answer with
    | error k =>
      exact ⟨s.out, some k, fun a b halu => execAll_lit_lit_binOp_of_error hop hf halu hlow hroom _⟩
    | ok r =>
      obtain ⟨out, fault, hwrt⟩ := execAll_wrt_of_top hf r
      refine ⟨out, fault, fun a b halu => ?_⟩
      obtain ⟨m, p, hp, htop, e⟩ := execAll_lit_lit_binOp_of_ok hop hf halu hlow hroom
      rw [e]
      exact hwrt m p (by omega) (by omega) htop
  · obtain ⟨k, hk⟩ := execAll_lit_lit_of_no_room hf hspace
    exact ⟨s.out, some k, fun a b _ => hk a b _⟩

/-- R97: where the ALU function is symmetric, the order of the two literals changes neither OUT nor FAULT. -/
theorem execAll_lit_lit_binOp_wrt_comm (hcomm : ∀ v w, f v w = f w v) (a b : Word) :
    ∃ t u, execAll [⟨.lit a, rfl⟩, ⟨.lit b, rfl⟩, op, ⟨.wrt 0, rfl⟩] s = .next t ∧
      execAll [⟨.lit b, rfl⟩, ⟨.lit a, rfl⟩, op, ⟨.wrt 0, rfl⟩] s = .next u ∧ t.out = u.out ∧ t.fault = u.fault := by
  obtain ⟨out, fault, hseen⟩ := execAll_lit_lit_binOp_wrt hop hf (f b a)
  obtain ⟨t, ht, htout, htfault⟩ := hseen a b rfl
  obtain ⟨u, hu, huout, hufault⟩ := hseen b a (hcomm a b)
  exact ⟨t, u, ht, hu, htout.trans huout.symm, htfault.trans hufault.symm⟩

/-- R97: with room, the ALU's answer is left on top. -/
theorem execAll_lit_lit_binOp_top {a b r : Word} (halu : f b a = .ok r)
    (hlow : 0 ≤ s.sp.toInt) (hroom : s.sp.toInt + 2 ≤ stackCap s - 1) :
    ∃ t, execAll [⟨.lit a, rfl⟩, ⟨.lit b, rfl⟩, op] s = .next t ∧ t.fault = none ∧
      wordAt t (topIndex t).toNat = r := by
  obtain ⟨m, p, _, htop, e⟩ := execAll_lit_lit_binOp_of_ok hop hf halu hlow hroom
  exact ⟨_, e [], hf, htop⟩

end BinOp

/-! ## The obligation (R97) -/

theorem aluAdd_comm (a b : Word) : aluAdd a b = aluAdd b a := congrArg narrow (add_comm _ _)

/-- With decision D12: both orders of INT_MIN and -1 overflow. -/
theorem aluMul_comm (a b : Word) : aluMul a b = aluMul b a := congrArg narrow (mul_comm _ _)

/-- Settles O33: ADD and MUL have symmetric ALU functions; SUB and DIV find their answer on top. -/
theorem orderLawsOfArithmetic : Obligations.OrderLawsOfArithmetic := by
  unfold Obligations.OrderLawsOfArithmetic
  refine ⟨?commute, fun s p q hf hlow hroom => ⟨?sub, ?div⟩⟩
  case commute =>
    rintro s a b op (hadd | hmul) hf
    · exact execAll_lit_lit_binOp_wrt_comm (fun t => by rw [execute_eq_exec, hadd]; rfl) hf aluAdd_comm a b
    · exact execAll_lit_lit_binOp_wrt_comm (fun t => by rw [execute_eq_exec, hmul]; rfl) hf aluMul_comm a b
  case sub =>
    intro hfits
    obtain ⟨r, (halu : aluSub q p = .ok r), hr⟩ := narrow_eq_ok hfits
    obtain ⟨t, e, hnone, htop⟩ := execAll_lit_lit_binOp_top (op := ⟨.sub 0, rfl⟩) (fun _ => rfl) hf halu hlow hroom
    exact ⟨t, e, hnone, by rw [htop, hr]⟩
  case div =>
    intro hzero hedge
    obtain ⟨r, halu, hr⟩ := aluDiv_eq_ok hzero hedge
    obtain ⟨t, e, hnone, htop⟩ := execAll_lit_lit_binOp_top (op := ⟨.div 0, rfl⟩) (fun _ => rfl) hf halu hlow hroom
    exact ⟨t, e, hnone, by rw [htop, hr, truncDiv]⟩

end Sys2Proof.Machine
end

section
/-! PROOFS. WRT with an entry on the stack, into a sink that accepts and into one that fails (R98, R99, R107), and the
decimal rendering that it emits (R100). -/

namespace Sys2Proof.Machine

/-! ## WRT with an entry (R98, R99) -/

/-- R98 with an entry: SP falls by one, and the sink's answer decides between a longer OUT and OutputError. -/
theorem execWrt_of_entry {s : State} (hlow : 1 ≤ s.sp.toInt) (hhigh : s.sp.toInt ≤ stackCap s) :
    ∃ p : Word, p.toInt = s.sp.toInt - 1 ∧
      (sinkAnswer s = .accept → execWrt s = .next
        ((s.setSp p).setAnswered.setOut (s.out ++ dec (wordAt s (topIndex s).toNat) ++ [newline]))) ∧
      (∀ e, sinkAnswer s = .fail e → execWrt s = .next
        ((s.setSp p).setAnswered.setFault (.outputError e))) := by
  rcases execWrt_cases s with ⟨hout, _⟩ | ⟨_, _, p, hp, ⟨ha, e⟩ | ⟨k, ha, e⟩⟩
  · simp only [OutOfBounds, topIndex] at hout
    omega
  · rw [← List.append_assoc] at e
    exact ⟨p, hp, fun _ => e, fun k hk => by cases ha.symm.trans hk⟩
  · refine ⟨p, hp, fun haccept => (by cases ha.symm.trans haccept), fun k' hk => ?_⟩
    cases ha.symm.trans hk
    exact e

/-- Settles O16: the accepting side of `execWrt_of_entry`. -/
theorem wrtAppendsTheTopInDecimal : Obligations.WrtAppendsTheTopInDecimal := by
  unfold Obligations.WrtAppendsTheTopInDecimal
  intro s x hlow hhigh haccept
  obtain ⟨p, hp, hemitted, _⟩ := execWrt_of_entry hlow hhigh
  exact ⟨p, hemitted haccept, hp⟩

/-- Settles O24: the failing side of `execWrt_of_entry`. -/
theorem sinkFailureIsOutputError : Obligations.SinkFailureIsOutputError := by
  unfold Obligations.SinkFailureIsOutputError
  intro s x e hlow hhigh hfail
  obtain ⟨p, _, _, hfailed⟩ := execWrt_of_entry hlow hhigh
  exact ⟨p, hfailed e hfail⟩

/-! ## The decimal rendering (R100) -/

theorem length_decDigits_le (fuel n : Nat) : (decDigits fuel n).length ≤ fuel := by
  induction fuel generalizing n with
  | zero => exact le_refl 0
  | succ fuel ih =>
    rcases decDigits_succ fuel n with ⟨_, e⟩ | ⟨_, e⟩ <;> rw [e]
    · exact Nat.succ_pos fuel
    · rw [List.length_append]
      exact Nat.succ_le_succ (ih (n / 10))

/-- The first digit is zero for zero alone, when there are digits enough for the number. -/
theorem head?_decDigits_ne_zero {fuel n : Nat} (hn : n ≠ 0) (h : n < 10 ^ fuel) :
    (decDigits fuel n).head? ≠ some 0x30 := by
  induction fuel generalizing n with
  | zero => exact nofun
  | succ fuel ih =>
    rcases decDigits_succ fuel n with ⟨hdigit, e⟩ | ⟨hmore, e⟩ <;> rw [e]
    · intro hzero
      have hvalue := congrArg BitVec.toNat (Option.some.inj hzero)
      rw [toNat_digitByte hdigit] at hvalue
      exact hn (Nat.add_left_cancel hvalue)
    · have hrest : n / 10 < 10 ^ fuel := by
        rw [pow_succ] at h
        omega
      have hne : decDigits fuel (n / 10) ≠ [] := by
        cases fuel with
        | zero => omega
        | succ fuel => exact decDigits_ne_nil fuel (n / 10)
      rw [List.head?_append_of_ne_nil _ hne]
      exact ih (by omega) hrest

/-- The value the assembler reads from digits is their positional value. -/
theorem foldl_of_parseDigitsFrom {acc n : Nat} {bs : List Byte} (h : parseDigitsFrom acc bs = some n) :
    bs.foldl (fun n b => 10 * n + (b.toNat - 0x30)) acc = n := by
  induction bs generalizing acc with
  | nil => exact Option.some.inj h
  | cons b bs ih =>
    simp only [parseDigitsFrom] at h
    split at h
    · exact ih h
    · cases h

theorem dec_eq_sign_append (v : Word) :
    dec v = (if v.toInt < 0 then [0x2D] else []) ++ decDigits 10 v.toInt.natAbs := by
  unfold dec
  split_ifs <;> rfl

/-- |v| has at most ten digits. -/
theorem natAbs_toInt_lt (v : Word) : v.toInt.natAbs < 10 ^ 10 := by
  have hrange := toInt_range v
  simp only [intMin, intMax] at hrange
  omega

/-- Settles O18: the digits after the sign are those of |v|, and the assembler's reading of them gives their value. -/
theorem decIsTheDecimalRendering : Obligations.DecIsTheDecimalRendering := by
  unfold Obligations.DecIsTheDecimalRendering
  intro v
  have hfits := natAbs_toInt_lt v
  refine ⟨_, _, dec_eq_sign_append v, rfl, List.length_pos_iff.mpr (decDigits_ne_nil 9 _),
    length_decDigits_le 10 _, fun b => digit_of_mem_decDigits, fun hhead => ?noLeadingZero,
    foldl_of_parseDigitsFrom (parseDigitsFrom_decDigits hfits (by decide))⟩
  case noLeadingZero =>
    have hzero : v.toInt.natAbs = 0 := by
      by_contra hne
      exact head?_decDigits_ne_zero hne hfits hhead
    rw [hzero]
    rfl

end Sys2Proof.Machine
end

section
/-! PROOFS. A fault at the execute stage: what the instruction that raises it leaves unchanged and which kinds it can
raise, and the modes in which a step exists (R102 to R107, R119, R123). -/

namespace Sys2Proof.Machine

/-! ## The instruction that faults (R104, R106) -/

/-- The three ways in which an instruction ends in a fault: a raise before any effect, a push that has written the
sentinel slot, and a transfer that failed after the pop. -/
theorem exec_fault_cases {i : Instr} {s t : State} {k : FaultKind} (h : exec i s = .next t)
    (hnone : s.fault = none) (hk : t.fault = some k) :
    (((k = .illegalInstruction ∧ i.mnemonic = .ILL) ∨ k = .memoryError ∨
        (k = .arithmeticOverflow ∧ i.mnemonic ∈ [.ADD, .SUB, .MUL, .DIV]) ∨
        (k = .divideByZero ∧ i.mnemonic = .DIV)) ∧ t = s.setFault k) ∨
    (k = .stackOverflow ∧ 0 ≤ pushIndex s ∧ pushIndex s = stackCap s - 1 ∧
      ∃ v, t = (s.setMem (Memory.store s.mem (pushIndex s).toNat v)).setFault k) ∨
    (∃ e p, k = .outputError e ∧ i.mnemonic = .WRT ∧ sinkAnswer s = .fail e ∧
      t = (s.setSp p).setAnswered.setFault k) := by
  cases exec_effect h with
  | raise _ kind eq =>
    subst eq
    cases hk
    exact .inl ⟨kind, rfl⟩
  | ceiling v _ inside full eq =>
    subst eq
    cases hk
    obtain ⟨hlow, hbelow⟩ := inside
    have hslot : pushIndex s = stackCap s - 1 := le_antisymm (Int.le_sub_one_of_lt hbelow) full
    exact .inr (.inl ⟨rfl, hlow, hslot, v, rfl⟩)
  | sinkFailed p e who _ _ answer eq =>
    subst eq
    cases hk
    exact .inr (.inr ⟨e, p, rfl, who, answer, rfl⟩)
  | pushed _ _ _ _ _ _ eq | stored _ _ _ _ _ _ _ eq | emitted _ _ _ _ _ eq =>
    subst eq
    cases hnone.symm.trans hk

/-- Settles O30: the push writes the sentinel slot alone, and only the failed transfer has moved SP. -/
theorem faultLeavesStateButSentinel : Obligations.FaultLeavesStateButSentinel := by
  unfold Obligations.FaultLeavesStateButSentinel
  intro i s t k _ hnone h hk
  rcases exec_fault_cases h hnone hk with ⟨_, rfl⟩ | ⟨_, hlow, hslot, v, rfl⟩ | ⟨e, p, rfl, _, _, rfl⟩
  · exact ⟨rfl, rfl, fun _ _ => rfl, .inr rfl⟩
  · refine ⟨rfl, rfl, fun j hj => ?_, .inr rfl⟩
    rw [← hslot] at hj
    exact (Memory.word_store_toNat s.mem hlow v j).trans (if_neg hj)
  · exact ⟨rfl, rfl, fun _ _ => rfl, .inl ⟨e, rfl⟩⟩

/-- Settles O31, one kind after another; MemoryError and StackOverflow are none of the four. -/
theorem faultKindsByInstruction : Obligations.FaultKindsByInstruction := by
  unfold Obligations.FaultKindsByInstruction
  intro i s t k hnone h hk
  rcases exec_fault_cases h hnone hk with
    ⟨⟨rfl, hill⟩ | rfl | ⟨rfl, harith⟩ | ⟨rfl, hdiv⟩, _⟩ | ⟨rfl, _⟩ | ⟨e, _, rfl, hwrt, hfail, _⟩
  · exact ⟨fun _ => hill, nofun, nofun, nofun⟩
  · exact ⟨nofun, nofun, nofun, nofun⟩
  · exact ⟨nofun, fun _ => harith, nofun, nofun⟩
  · exact ⟨nofun, nofun, fun _ => hdiv, nofun⟩
  · exact ⟨nofun, nofun, nofun, nofun⟩
  · refine ⟨nofun, nofun, nofun, fun e' he => ?_⟩
    cases he
    exact ⟨hwrt, hfail⟩

/-! ## The modes without a step (R105, R119) -/

theorem step_of_unloaded {s : State} (hm : s.mode = .unloaded) : step s = .refused .stepBeforeLoad := by
  simp only [step, hm]

theorem step_of_faulted {s : State} (hm : s.mode = .faulted) : step s = .fault (.terminal s.fault) := by
  simp only [step, hm]

/-- Settles O37: a step answers a next state in MODE = Loaded, and the two other modes have their own stops. -/
theorem stepExistsOnlyWhenLoaded : Obligations.StepExistsOnlyWhenLoaded := by
  unfold Obligations.StepExistsOnlyWhenLoaded
  intro s
  exact ⟨⟨fun ⟨_, h⟩ => loaded_of_step h, step_next_of_loaded⟩, step_of_unloaded, step_of_faulted⟩

end Sys2Proof.Machine
end

section
/-! PROOFS. LOAD in MODE = Unloaded: the whole code array, or a wrong length (R122). -/

namespace Sys2Proof.Machine

/-- A sequence that LOAD has put in place is read back record by record (R122). -/
theorem codeAt_setCode (s : State) {seq : List Record} {i : Nat} (h : i < seq.length) :
    codeAt (s.setCode seq) i = seq[i] := by
  rw [codeAt, State.setCode_code, List.getElem?_eq_getElem h, Option.getD_some]

/-- Settles O44: of LOAD's three cases, MODE = Unloaded leaves the two that the length tells apart. -/
theorem loadReplacesTheCodeArray : Obligations.LoadReplacesTheCodeArray := by
  unfold Obligations.LoadReplacesTheCodeArray
  intro s seq hm
  rw [show issue (.load seq) s = issueLoad seq s from rfl]
  rcases issueLoad_cases seq s with ⟨_, hlen, e⟩ | ⟨_, hlen, e⟩ | ⟨hne, _⟩
  · rw [e]
    exact ⟨absurd hlen, fun _ => ⟨rfl, fun _ => codeAt_setCode s⟩⟩
  · exact ⟨fun _ => e, fun h => absurd h hlen⟩
  · exact absurd hm hne

end Sys2Proof.Machine
end
